-- ==== Sys2Proof/Config.lean ====
section
/-! DEFINITION. What an implementation of the core fixes: the constants of 00_scope.md R5 to R10. The one open
parameter, the memory size N (R7), is data of the memory in State; only its value in `State.reset` stands here.
The spec leaves no value to chance (R172, R233), so there is no free value. -/

namespace Sys2Proof.Config

/-- `W`, the width of RA, RB, RO and the ALU (R5; the spec's decision D2). -/
def operandWidth : Nat := 8

/-- `IMM_BITS` (R6). -/
def immBits : Nat := 3

/-- `PC_BITS` (R8; the spec's decision D4). -/
def pcBits : Nat := 8

/-- `INSTR_BITS` (R9). -/
def instrBits : Nat := 8

/-- The largest memory size N, from the 8-bit PC (R7). -/
def maxMemSize : Nat := 256

/-- The memory size N of `State.reset` alone. DESIGN CHOICE, log 1, unsafe: R7 leaves N open between 1 and 256;
a machine of another size starts from `launch`. -/
def resetMemSize : Nat := 256

end Sys2Proof.Config
end

