-- ==== Sys2Proof/Word.lean ====
section
/-! DEFINITION. The word types of the core (00_scope.md R5, R6, R8, R9). -/

namespace Sys2Proof

/-- An instruction byte, or a byte of memory (R9, R40). -/
abbrev Byte := BitVec 8

/-- A value of RA, RB or RO (R5, R21, R22). -/
abbrev Word := BitVec 8

/-- A value of PC (R8, R25). -/
abbrev Addr := BitVec 8

/-- The immediate field b[2:0] (R6, R66). -/
abbrev Imm := BitVec 3

end Sys2Proof
end

