-- ==== Sys2Proof/Machine/Flags.lean ====
section
/-! DEFINITION. The ALU and its carry or borrow (40_alu.md R100 to R105), the only flag computation of the core
(10_state.md R27). Operands become integers, the result is computed exactly, and the narrowing and the flag are
read off the exact result (R103). -/

namespace Sys2Proof.Machine

/-- The carry of an addition: the unmasked sum exceeds 2^w - 1 (R100). -/
def carryOut {w : Nat} (a b : BitVec w) : Bool := decide (a.toNat + b.toNat > 2 ^ w - 1)

/-- The borrow of a subtraction: a < b, unsigned (R100, R102). -/
def borrow {w : Nat} (a b : BitVec w) : Bool := decide (a.toNat < b.toNat)

/-- `alu(a, b, subtract) -> (result, carry)` of R100, written in the width `w` as the spec writes it in W. -/
def alu {w : Nat} (a b : BitVec w) (subtract : Bool) : BitVec w × Bool :=
  if subtract then (BitVec.ofInt w ((a.toNat : Int) - (b.toNat : Int)), borrow a b)
  else (BitVec.ofNat w (a.toNat + b.toNat), carryOut a b)

end Sys2Proof.Machine
end

