-- ==== Sys2Proof/Syntax.lean ====
section
/-! DEFINITION. The instructions: one constructor per row of the opcode map of 30_encoding.md R69
(spec/opcode_table.json), in the table's order. -/

namespace Sys2Proof

/-- One instruction of the core. A constructor carries EVERY bit its row leaves open, the ignored ones too (R70):
the retire event and `ErrByte` record the whole byte (R170, R201), so the byte must be readable off the
instruction (log 5). -/
inductive Instr where
  /-- `1xxx xnnn` J=n (R141): `x` = b[6:3], ignored; `n` = b[2:0], the target. -/
  | j (x : BitVec 4) (n : Imm)
  /-- `01ff fnnn` JC=n (R142): `f` = b[5:3], with `n` the fall-through; `n` = b[2:0], the target. -/
  | jc (f : BitVec 3) (n : Imm)
  /-- `0000 00xx` RA=RA+RB (R106): `x` = b[1:0], ignored. -/
  | raAdd (x : BitVec 2)
  /-- `0000 01xx` RA=RA-RB (R107): `x` = b[1:0], ignored. -/
  | raSub (x : BitVec 2)
  /-- `0000 1nnn` RA=n (R120): `n` = b[2:0]. -/
  | raImm (n : Imm)
  /-- `0001 00xx` RB=RA+RB (R108): `x` = b[1:0], ignored. -/
  | rbAdd (x : BitVec 2)
  /-- `0001 01xx` RB=RA-RB (R109): `x` = b[1:0], ignored. -/
  | rbSub (x : BitVec 2)
  /-- `0001 1nnn` RB=n (R121): `n` = b[2:0]. -/
  | rbImm (n : Imm)
  /-- `0010 xxxx` RO=RA (R122): `x` = b[3:0], ignored. -/
  | roRa (x : BitVec 4)
  /-- `0011 xxxx`, the reserved pattern (R71, R200): `x` = b[3:0], recorded in ErrByte only. -/
  | unknown (x : BitVec 4)
deriving DecidableEq, Repr

end Sys2Proof
end

