-- ==== Sys2Proof/WellFormed.lean ====
section
/-! DEFINITION. Which instructions the assembler emits (30_encoding.md R77).

Every term of `Instr` is an instruction of the core: its fields are exactly as wide as the encoding's, and all 256
bytes are assigned (R69, R72), so no term is ill-formed as an instruction. The check the spec does make on
instructions is whether one is a CANONICAL form, that is, one of the bytes of R77. -/

namespace Sys2Proof

/-- The canonical instructions of R77: every bit that the fields do not force is 0 (the spec's decision D18), and
the reserved pattern, which has no assembly form, is not among them. -/
def Instr.canonical : Instr → Bool
  | .j x _ => x == 0
  | .jc f _ => f == 0
  | .raAdd x => x == 0
  | .raSub x => x == 0
  | .raImm _ => true
  | .rbAdd x => x == 0
  | .rbSub x => x == 0
  | .rbImm _ => true
  | .roRa x => x == 0
  | .unknown _ => false

end Sys2Proof
end

