-- ==== Sys2Proof/Decode.lean ====
section
/-! DEFINITION. The decoder to instructions and its encoder (30_encoding.md R60 to R73). The decoder to the
instruction descriptor of R67 and R68 is in Machine/Descriptor.lean. -/

namespace Sys2Proof

/-- Why decoding a list of bytes gives no instruction. No byte value is refused (R68); only an empty list is. -/
inductive DecodeError where
  /-- There is no byte to decode. -/
  | noByte
deriving DecidableEq, Repr

/-- The instruction of one byte: the first matching row of R69, top to bottom. Total on all 256 values (R68). -/
def decodeByte (b : Byte) : Instr :=
  if b[7] then .j (b.extractLsb' 3 4) (b.extractLsb' 0 3)
  else if b[6] then .jc (b.extractLsb' 3 3) (b.extractLsb' 0 3)
  else if b[5] then
    if b[4] then .unknown (b.extractLsb' 0 4)
    else .roRa (b.extractLsb' 0 4)
  else if b[4] then
    if b[3] then .rbImm (b.extractLsb' 0 3)
    else if b[2] then .rbSub (b.extractLsb' 0 2)
    else .rbAdd (b.extractLsb' 0 2)
  else
    if b[3] then .raImm (b.extractLsb' 0 3)
    else if b[2] then .raSub (b.extractLsb' 0 2)
    else .raAdd (b.extractLsb' 0 2)

/-- Decoding from a list of bytes: every instruction is exactly one byte (R60). The rest of the list is handed
back. -/
def decode : List Byte → Except DecodeError (Instr × List Byte)
  | [] => .error .noByte
  | b :: rest => .ok (decodeByte b, rest)

/-- The byte of an instruction: the fields of its row put back at their places (R61, R69). -/
def encodeByte : Instr → Byte
  | .j x n => 0b1#1 ++ x ++ n
  | .jc f n => 0b01#2 ++ f ++ n
  | .raAdd x => 0b000000#6 ++ x
  | .raSub x => 0b000001#6 ++ x
  | .raImm n => 0b00001#5 ++ n
  | .rbAdd x => 0b000100#6 ++ x
  | .rbSub x => 0b000101#6 ++ x
  | .rbImm n => 0b00011#5 ++ n
  | .roRa x => 0b0010#4 ++ x
  | .unknown x => 0b0011#4 ++ x

/-- The bytes of an instruction (R60: one). -/
def encode (i : Instr) : List Byte := [encodeByte i]

/-- The byte at place `k` (0 first) of an instruction whose bits are `w`, numbered as spec/opcode_table.json
numbers them, with every bit at or above `nbits` 0. -/
def tableByte (nbits w k : Nat) : Byte := BitVec.ofNat 8 (w % 2 ^ nbits / 256 ^ k)

/-- The first `k` bytes of such an instruction, first byte first. -/
def tableBytes (nbits w : Nat) : Nat → List Byte
  | 0 => []
  | k + 1 => tableBytes nbits w k ++ [tableByte nbits w k]

/-- The instruction the decoder reads from an instruction whose `nbits` bits are `w`. An instruction of this core
is one byte, so one byte is laid out even where `nbits` is 0. -/
def decodeTableWord (nbits w : Nat) : Option Instr :=
  match decode (tableBytes nbits w (max 1 (nbits / 8))) with
  | .ok (i, _) => some i
  | .error _ => none

end Sys2Proof
end

