-- ==== Sys2Proof/Machine/Descriptor.lean ====
section
/-! DEFINITION. The instruction descriptor and the decoder that makes it (30_encoding.md R67, R68). The descriptor
is derived from a byte and never part of the state (10_state.md R31). -/

namespace Sys2Proof.Machine

/-- What the non-jump path of a byte does (R67; the typing is the spec's decision D25). -/
inductive OpClass where
  | aluAdd
  | aluSub
  | loadImm
  | output
  | unknown
deriving DecidableEq, Repr

/-- The destination named by D = b[5:4] (R63). -/
inductive Dest where
  | ra
  | rb
  | ro
  | none
deriving DecidableEq, Repr

/-- The instruction descriptor (R67), its fields as the spec names them. -/
structure Descriptor where
  opcodeClass : OpClass
  destination : Dest
  usesImmediate : Bool
  immediateValue : Imm
  isJump : Bool
  isConditionalJump : Bool
deriving DecidableEq, Repr

/-- The destination of a byte, from D = b[5:4] (R63). -/
def destOf (b : Byte) : Dest :=
  match b[5], b[4] with
  | false, false => .ra
  | false, true => .rb
  | true, false => .ro
  | true, true => .none

/-- The class of a byte's non-jump path (R68): D first, then Sreg = b[3], then S = b[2]. -/
def classOf (b : Byte) : OpClass :=
  match destOf b with
  | .none => .unknown
  | .ro => .output
  | .ra | .rb =>
    if b[3] then .loadImm
    else if b[2] then .aluSub
    else .aluAdd

/-- The decoder of R68: a total function of the byte. -/
def describe (b : Byte) : Descriptor where
  opcodeClass := classOf b
  destination := destOf b
  usesImmediate := classOf b == .loadImm
  immediateValue := b.extractLsb' 0 3
  isJump := b[7]
  isConditionalJump := b[6]

end Sys2Proof.Machine
end

