-- ==== Sys2Proof/Machine/State.lean ====
section
/-! DEFINITION. The state of the machine (10_state.md R20, 20_memory.md R40), its value after reset (R33), and the
reasons a step or a launch can stop. -/

namespace Sys2Proof.Machine

/-- The run state of the execution engine (10_state.md R28, 43_execution_engine.md R160). -/
inductive Status where
  | running
  | haltedNormal
  | haltedError
deriving DecidableEq, Repr

/-- An event the core emits: what a model observes besides the final state (43_execution_engine.md R171). -/
inductive Event where
  /-- `Retire(pc, byte)`: one executed instruction, where it was fetched and its byte (R170). -/
  | retire (pc : Addr) (byte : Byte)
  /-- `Output(v)`: one execution of the output path, with the new RO value (41_register_writes.md R123). -/
  | output (v : Word)
deriving DecidableEq, Repr

/-- The instruction memory (20_memory.md R40): `size` is N, the number of addresses, and `cells` lists the bytes
that are not `0x00`, which is what an unlisted address below N holds (R52). -/
structure Memory where
  size : Nat
  cells : List Host.Cell
deriving DecidableEq, Repr

/-- The canonical form of a memory: 1 ≤ N ≤ 256 (00_scope.md R7), addresses strictly rising and below N, and no
cell that holds what an unlisted address reads as. -/
abbrev Memory.wf (m : Memory) : Prop :=
  1 ≤ m.size ∧ m.size ≤ Config.maxMemSize ∧
    m.cells.Pairwise (fun x y => x.1 < y.1) ∧
    ∀ c ∈ m.cells, c.1 < m.size ∧ c.2 ≠ 0

/-- The machine's state: the eight registers of 10_state.md R20, the instruction memory (R40), and `trace`, the
events emitted since reset, oldest first, which is the model's own record of the observation of a run (log 2). -/
structure State where
  /-- RA (R21). -/
  ra : Word
  /-- RB (R21). -/
  rb : Word
  /-- RO (R22). -/
  ro : Word
  /-- PC (R25). -/
  pc : Addr
  /-- Carry (R27). -/
  carry : Bool
  /-- Status (R28). -/
  status : Status
  /-- ErrPC (R29). -/
  errPC : Addr
  /-- ErrByte (R29). -/
  errByte : Byte
  /-- The instruction memory (R40). -/
  mem : Memory
  /-- The events since reset (R123, R170, R171). -/
  trace : List Event
deriving DecidableEq, Repr

/-- Why a step stops without a next state. The core's own exception, DecodeUnknown, is NOT one of these: taking it
is a next state (60_exceptions.md R201). -/
inductive Fault where
  /-- Raised by the fetch alone, at a PC outside 0 .. N-1, an address the spec says does not exist (20_memory.md
  R41). Safe: PC < N holds in every state a run reaches (10_state.md R25), so no run ends here (log 11). -/
  | fetchOutsideMemory
deriving DecidableEq, Repr

/-- Why the model gives no meaning. -/
inductive Refusal where
  /-- Raised by `exec` for an instruction without a meaning. No arm raises it: every instruction has one. Safe. -/
  | notModelled (mnemonic : String)
  /-- Raised by `launch` for an image of more than N bytes, which the spec refuses (20_memory.md R57). Safe: the
  core is not started. -/
  | oversizeImage
  /-- Raised by `launch` for a memory size outside 1 .. 256, which is no size of this hardware (00_scope.md R7); the
  refusal is the model's choice (log 25). Safe: the core is not started. -/
  | memSizeOutOfRange
deriving DecidableEq, Repr

/-- The machine right after reset, with no image loaded: every register 0 and Status Running (10_state.md R33,
70_reset_and_hazards.md R231). The memory lists nothing; its size is the DESIGN CHOICE of log 1. -/
def State.reset : State where
  ra := 0
  rb := 0
  ro := 0
  pc := 0
  carry := false
  status := .running
  errPC := 0
  errByte := 0
  mem := { size := Config.resetMemSize, cells := [] }
  trace := []

end Sys2Proof.Machine
end

