-- ==== Sys2Proof/Machine/Ops.lean ====
section
/-! DEFINITION. The named operations over memory and registers that every meaning is built from: the memory's read
and the host's load, the register writes, the events, `advance()`, the taken jump, taking the one exception, and
reset, which is the only way back from it. -/

namespace Sys2Proof.Machine

/-! ### Memory -/

/-- The byte a list of cells gives at an address: an unlisted address holds 0x00 (20_memory.md R52). -/
def cellsRead : List Host.Cell → Nat → Byte
  | [], _ => 0
  | (k, v) :: rest, a => if a = k then v else cellsRead rest a

/-- `v` put at address `a` into a list of cells in canonical form; the value 0x00 takes the entry out. -/
def cellsWrite : List Host.Cell → Nat → Byte → List Host.Cell
  | [], a, v => if v = 0 then [] else [(a, v)]
  | (k, u) :: rest, a, v =>
    if a < k then if v = 0 then (k, u) :: rest else (a, v) :: (k, u) :: rest
    else if a = k then if v = 0 then rest else (a, v) :: rest
    else (k, u) :: cellsWrite rest a v

/-- `MemRead(addr, 1)` (20_memory.md R41): the byte at an address of 0 .. N-1, nothing at any other. -/
def Memory.read (m : Memory) (a : Nat) : Option Byte :=
  if a < m.size then some (cellsRead m.cells a) else none

/-- The HOST's load of one byte, before a run (20_memory.md R42, R52): no instruction reaches it. -/
def Memory.load (m : Memory) (a : Nat) (v : Byte) : Memory :=
  if a < m.size then { m with cells := cellsWrite m.cells a v } else m

/-- The fetch: one byte at PC (43_execution_engine.md R162). -/
def fetch (s : State) : Option Byte := s.mem.read s.pc.toNat

/-! ### One field at a time -/

/-- `RA <- v`. -/
def State.setRA (s : State) (v : Word) : State := { s with ra := v }

/-- `RB <- v`. -/
def State.setRB (s : State) (v : Word) : State := { s with rb := v }

/-- `RO <- v`. -/
def State.setRO (s : State) (v : Word) : State := { s with ro := v }

/-- `PC <- v`. -/
def State.setPC (s : State) (v : Addr) : State := { s with pc := v }

/-- `Carry <- c`. -/
def State.setCarry (s : State) (c : Bool) : State := { s with carry := c }

/-- `Status <- x`. -/
def State.setStatus (s : State) (x : Status) : State := { s with status := x }

/-- `ErrPC <- pc` and `ErrByte <- b`. -/
def State.setErr (s : State) (pc : Addr) (b : Byte) : State := { s with errPC := pc, errByte := b }

/-- `emit e`: the event is recorded after those before it. -/
def State.emit (s : State) (e : Event) : State := { s with trace := s.trace ++ [e] }

/-! ### Shared operations -/

/-- The register write of a destination (30_encoding.md R63); a byte without a destination writes none. -/
def writeDest (d : Dest) (v : Word) (s : State) : State :=
  match d with
  | .ra => s.setRA v
  | .rb => s.setRB v
  | .ro => s.setRO v
  | .none => s

/-- `emit Retire(pc, byte)` for the instruction at PC (43_execution_engine.md R170). -/
def retire (b : Byte) (s : State) : State := s.emit (.retire s.pc b)

/-- `advance()` (43_execution_engine.md R164): the normal halt at PC = N - 1, else the next address. -/
def advance (s : State) : State :=
  if s.pc.toNat + 1 = s.mem.size then s.setStatus .haltedNormal
  else s.setPC (s.pc + 1)

/-- TAKING THE ONE EXCEPTION: `raise DecodeUnknown(pc, byte)` (60_exceptions.md R201), at the PC of the offending
byte. The record is written and Status becomes HaltedError; PC, RA, RB, RO and Carry stay, no event is emitted. -/
def raiseDecodeUnknown (b : Byte) (s : State) : State :=
  (s.setErr s.pc b).setStatus .haltedError

/-- THE RETURN FROM IT: there is no return instruction (60_exceptions.md R208); a reset is the only way out of a
halted state (70_reset_and_hazards.md R230). Every register takes its reset value (10_state.md R33), the memory
stays (R232), and a new run, with a new trace, begins (R171, log 2). -/
def State.applyReset (s : State) : State := { State.reset with mem := s.mem }

end Sys2Proof.Machine
end

