-- ==== Sys2Proof/Machine/Operands.lean ====
section
/-! DEFINITION. The operand forms of the core (30_encoding.md R66, 40_alu.md R105, 42_control_transfer.md R143). No
other exists: no memory operand, no addressing mode (41_register_writes.md R124). -/

namespace Sys2Proof.Machine

/-- The ALU's operands: `a = RA` and `b = RB`, in this order (R105). -/
def aluOperands (s : State) : Word × Word := (s.ra, s.rb)

/-- `zext_W(imm)`: the immediate as a register value (R66). -/
def immOperand (n : Imm) : Word := n.setWidth 8

/-- `imm mod N`: the immediate as an absolute jump target (R143). -/
def jumpTarget (n : Imm) (s : State) : Addr := BitVec.ofNat 8 (n.toNat % s.mem.size)

end Sys2Proof.Machine
end

