-- ==== Sys2Proof/Machine/Paths.lean ====
section
/-! DEFINITION. The branches of the step of 43_execution_engine.md R161, each for a byte `b` fetched at PC: the taken
jump, the ALU path, the immediate path, the output path, and the reserved pattern. The meanings of the instructions
are written over these. -/

namespace Sys2Proof.Machine

/-- The taken jump: the retire event, then PC <- imm mod N (R161, R143); nothing else is written (R147). -/
def jumpPath (b : Byte) (n : Imm) (s : State) : State :=
  (retire b s).setPC (jumpTarget n s)

/-- The ALU path (R161, R105): the retire event, the destination and Carry from the ALU, `advance()`. -/
def aluPath (b : Byte) (d : Dest) (subtract : Bool) (s : State) : State :=
  let r := alu (aluOperands s).1 (aluOperands s).2 subtract
  advance ((writeDest d r.1 (retire b s)).setCarry r.2)

/-- The immediate path (R161): the retire event, the destination from the immediate, `advance()`. -/
def immPath (b : Byte) (d : Dest) (n : Imm) (s : State) : State :=
  advance (writeDest d (immOperand n) (retire b s))

/-- The output path (R161, 41_register_writes.md R123): the retire event, RO <- RA, the output event, `advance()`. -/
def outputPath (b : Byte) (s : State) : State :=
  advance ((writeDest .ro s.ra (retire b s)).emit (.output s.ra))

/-- The destination path of a byte: the case of R161 on the class of its descriptor, run when no jump is taken. -/
def destinationPath (b : Byte) (s : State) : State :=
  match (describe b).opcodeClass with
  | .aluAdd => aluPath b (describe b).destination false s
  | .aluSub => aluPath b (describe b).destination true s
  | .loadImm => immPath b (describe b).destination (describe b).immediateValue s
  | .output => outputPath b s
  | .unknown => raiseDecodeUnknown b s

/-- `jump_taken(b, Carry)` of 42_control_transfer.md R140. -/
def jumpTaken (b : Byte) (carry : Bool) : Bool :=
  (describe b).isJump || ((describe b).isConditionalJump && !carry)

end Sys2Proof.Machine
end

