-- ==== Sys2Proof/Machine/Arithmetic.lean ====
section
/-! DEFINITION. The arithmetic instructions (40_alu.md R106 to R109). -/

namespace Sys2Proof.Machine

/-- RA=RA+RB (R106). -/
def execRaAdd (x : BitVec 2) (s : State) : Host.Outcome State Fault Refusal :=
  .next (aluPath (encodeByte (.raAdd x)) .ra false s)

/-- RA=RA-RB (R107). -/
def execRaSub (x : BitVec 2) (s : State) : Host.Outcome State Fault Refusal :=
  .next (aluPath (encodeByte (.raSub x)) .ra true s)

/-- RB=RA+RB (R108). -/
def execRbAdd (x : BitVec 2) (s : State) : Host.Outcome State Fault Refusal :=
  .next (aluPath (encodeByte (.rbAdd x)) .rb false s)

/-- RB=RA-RB (R109). -/
def execRbSub (x : BitVec 2) (s : State) : Host.Outcome State Fault Refusal :=
  .next (aluPath (encodeByte (.rbSub x)) .rb true s)

end Sys2Proof.Machine
end

