-- ==== Sys2Proof/Machine/ControlTransfer.lean ====
section
/-! DEFINITION. The two jumps (42_control_transfer.md R140 to R148). -/

namespace Sys2Proof.Machine

/-- J=n (R141): always taken; the ignored bits only reach the retire event. -/
def execJ (x : BitVec 4) (n : Imm) (s : State) : Host.Outcome State Fault Refusal :=
  .next (jumpPath (encodeByte (.j x n)) n s)

/-- JC=n (R142): taken when Carry = 0; else the destination path of the same byte runs, as its low six bits name it
(the spec's decision D7, log 6). -/
def execJc (f : BitVec 3) (n : Imm) (s : State) : Host.Outcome State Fault Refusal :=
  if s.carry then .next (destinationPath (encodeByte (.jc f n)) s)
  else .next (jumpPath (encodeByte (.jc f n)) n s)

end Sys2Proof.Machine
end

