-- ==== Sys2Proof/Machine/RegisterWrites.lean ====
section
/-! DEFINITION. The immediate loads and the output instruction (41_register_writes.md R120 to R123). -/

namespace Sys2Proof.Machine

/-- RA=n (R120). -/
def execRaImm (n : Imm) (s : State) : Host.Outcome State Fault Refusal :=
  .next (immPath (encodeByte (.raImm n)) .ra n s)

/-- RB=n (R121). -/
def execRbImm (n : Imm) (s : State) : Host.Outcome State Fault Refusal :=
  .next (immPath (encodeByte (.rbImm n)) .rb n s)

/-- RO=RA (R122, R123). -/
def execRoRa (x : BitVec 4) (s : State) : Host.Outcome State Fault Refusal :=
  .next (outputPath (encodeByte (.roRa x)) s)

end Sys2Proof.Machine
end

