-- ==== Sys2Proof/Machine/Reserved.lean ====
section
/-! DEFINITION. The reserved pattern (60_exceptions.md R200, R201). -/

namespace Sys2Proof.Machine

/-- The bytes 0x30 .. 0x3F: the step raises DecodeUnknown (R200), at any Carry. -/
def execUnknown (x : BitVec 4) (s : State) : Host.Outcome State Fault Refusal :=
  .next (raiseDecodeUnknown (encodeByte (.unknown x)) s)

end Sys2Proof.Machine
end

