-- ==== Sys2Proof/Machine/Dispatch.lean ====
section
/-! DEFINITION. The meaning of each instruction, one arm per constructor of Instr. -/

namespace Sys2Proof.Machine

def exec (i : Instr) (s : State) : Host.Outcome State Fault Refusal :=
  match i with
  | .j x n => Sys2Proof.Machine.execJ x n s
  | .jc f n => Sys2Proof.Machine.execJc f n s
  | .raAdd x => Sys2Proof.Machine.execRaAdd x s
  | .raSub x => Sys2Proof.Machine.execRaSub x s
  | .raImm n => Sys2Proof.Machine.execRaImm n s
  | .rbAdd x => Sys2Proof.Machine.execRbAdd x s
  | .rbSub x => Sys2Proof.Machine.execRbSub x s
  | .rbImm n => Sys2Proof.Machine.execRbImm n s
  | .roRa x => Sys2Proof.Machine.execRoRa x s
  | .unknown x => Sys2Proof.Machine.execUnknown x s

end Sys2Proof.Machine
end

