-- ==== Sys2Proof/Machine/Step.lean ====
section
/-! DEFINITION. One step of the core (43_execution_engine.md R161). -/

namespace Sys2Proof.Machine

/-- One step: while Running, the byte at PC is fetched, decoded and executed (R161, R162). In a halted state the
request is ignored and nothing changes (R167, log 3). -/
def step (s : State) : Host.Outcome State Fault Refusal :=
  match s.status with
  | .running =>
    match fetch s with
    | some b => exec (decodeByte b) s
    | none => .fault .fetchOutsideMemory
  | .haltedNormal => .next s
  | .haltedError => .next s

/-- The state with the instruction whose bits are `w` placed at PC, where the step fetches. The step runs it when
the core is Running and PC < N, as it is after reset; nothing but the one byte of memory is changed. -/
def State.withFetchWord (s : State) (nbits w : Nat) : State :=
  { s with mem := s.mem.load s.pc.toNat (tableByte nbits w 0) }

end Sys2Proof.Machine
end

