-- ==== Sys2Proof/Machine/Image.lean ====
section
/-! DEFINITION. The program image and the launch (20_memory.md R52 to R57, 70_reset_and_hazards.md R234). Text is a
list of characters. -/

namespace Sys2Proof.Machine

/-- The lines of a text: each ends at `\n` or `\r\n`, which is removed (R54). What stands after the last terminator
is a line when it is not empty. -/
def splitLines : List Char → List (List Char)
  | [] => []
  | '\n' :: rest => [] :: splitLines rest
  | '\r' :: '\n' :: rest => [] :: splitLines rest
  | c :: rest =>
    match splitLines rest with
    | l :: ls => (c :: l) :: ls
    | [] => [[c]]

/-- One character of a binary numeral (R54). -/
def bitOfChar (c : Char) : Option Bool :=
  if c = '0' then some false
  else if c = '1' then some true
  else none

/-- The value of a numeral in base 2, first character most significant (R54), on top of the value `acc` of the
characters before it. -/
def binaryValue : List Char → Nat → Option Nat
  | [], acc => some acc
  | c :: rest, acc =>
    match bitOfChar c with
    | some true => binaryValue rest (2 * acc + 1)
    | some false => binaryValue rest (2 * acc)
    | none => none

/-- One line of the text format: exactly 8 characters, each '0' or '1' (R54); any other line is a LoadError
(R55). -/
def textLine (l : List Char) : Option Byte :=
  if l.length = 8 then (binaryValue l 0).map (BitVec.ofNat 8) else none

/-- What loading a text image gives: the image, and the line numbers (from 1) of the LoadErrors. -/
structure TextImage where
  image : List Byte
  loadErrors : List Nat
deriving DecidableEq, Repr

/-- The lines of a text image from line number `n` on: a valid line takes the next address, a LoadError's line is
skipped and takes none (R54, R55). -/
def loadLines : Nat → List (List Char) → TextImage
  | _, [] => { image := [], loadErrors := [] }
  | n, l :: rest =>
    let r := loadLines (n + 1) rest
    match textLine l with
    | some b => { r with image := b :: r.image }
    | none => { r with loadErrors := n :: r.loadErrors }

/-- The text format (a) of R53. -/
def loadText (text : List Char) : TextImage := loadLines 1 (splitLines text)

/-- The raw format (b) of R53: byte i of the file is byte i of the image (R56). -/
def loadRaw (file : List Byte) : List Byte := file

/-- The cells of an image stored from address `a` on; a byte 0x00 is what an unlisted address holds. -/
def imageCells : Nat → List Byte → List Host.Cell
  | _, [] => []
  | a, b :: rest => if b = 0 then imageCells (a + 1) rest else (a, b) :: imageCells (a + 1) rest

/-- The boot of R234: a memory of `n` bytes loaded with the image from address 0, the rest 0x00 (R52), and the core
right after reset. An image of more than `n` bytes is refused (R57), and so is a size outside 1 .. 256
(00_scope.md R7, log 25). -/
def launch (n : Nat) (image : List Byte) : Host.Outcome State Fault Refusal :=
  if n < 1 ∨ Config.maxMemSize < n then .refused .memSizeOutOfRange
  else if n < image.length then .refused .oversizeImage
  else .next { State.reset with mem := { size := n, cells := imageCells 0 image } }

end Sys2Proof.Machine
end

