-- ==== Sys2Proof/Machine/Assembler.lean ====
section
/-! DEFINITION. The assembly syntax (30_encoding.md R74 to R83) and the disassembly (R82). Text is a list of
characters. A line names an instruction in its canonical form (R77), and its byte is `encodeByte` of it. -/

namespace Sys2Proof.Machine

/-- A space or a tab (R74, R75). -/
def isBlank (c : Char) : Bool := c = ' ' || c = '\t'

/-- A line with every space and tab deleted (R75; the spec's decision D19). -/
def deleteBlanks (l : List Char) : List Char := l.filter (fun c => !isBlank c)

/-- The value 0 .. 9 of a digit. -/
def digitValue (c : Char) : Option Nat :=
  if '0'.toNat ≤ c.toNat ∧ c.toNat ≤ '9'.toNat then some (c.toNat - '0'.toNat) else none

/-- The value of a row of digits on top of the value `acc` of the digits before it. -/
def decimalValue : List Char → Nat → Option Nat
  | [], acc => some acc
  | c :: rest, acc =>
    match digitValue c with
    | some d => decimalValue rest (10 * acc + d)
    | none => none

/-- A decimal literal (R76, R78): at least one digit, nothing else, value 0 .. 7; leading zeros are allowed. -/
def literal (l : List Char) : Option Imm :=
  match l with
  | [] => none
  | _ :: _ =>
    match decimalValue l 0 with
    | some v => if v < 8 then some (BitVec.ofNat 3 v) else none
    | none => none

/-- The text before and after the first '=' of a line (R76). -/
def splitEquals : List Char → Option (List Char × List Char)
  | [] => none
  | c :: rest =>
    if c = '=' then some ([], rest)
    else (splitEquals rest).map (fun r => (c :: r.1, r.2))

/-- The mnemonics of R76. -/
inductive Mnemonic where
  | ra
  | rb
  | ro
  | j
  | jc
deriving DecidableEq, Repr

/-- The mnemonic a text spells; matching is case-sensitive (R75, R76). -/
def mnemonicOf (l : List Char) : Option Mnemonic :=
  if l = ['R', 'A'] then some .ra
  else if l = ['R', 'B'] then some .rb
  else if l = ['R', 'O'] then some .ro
  else if l = ['J'] then some .j
  else if l = ['J', 'C'] then some .jc
  else none

/-- The operands of R76. -/
inductive Operand where
  | raPlusRb
  | raMinusRb
  | ra
  | lit (n : Imm)
deriving DecidableEq, Repr

/-- The operand a text spells (R76, R78). -/
def operandOf (l : List Char) : Option Operand :=
  if l = ['R', 'A', '+', 'R', 'B'] then some .raPlusRb
  else if l = ['R', 'A', '-', 'R', 'B'] then some .raMinusRb
  else if l = ['R', 'A'] then some .ra
  else (literal l).map .lit

/-- The accepted pairs of R76 with the instruction each names (R77); every other pair is rejected (R79). -/
def formOf : Mnemonic → Operand → Option Instr
  | .ra, .raPlusRb => some (.raAdd 0)
  | .ra, .raMinusRb => some (.raSub 0)
  | .ra, .lit n => some (.raImm n)
  | .rb, .raPlusRb => some (.rbAdd 0)
  | .rb, .raMinusRb => some (.rbSub 0)
  | .rb, .lit n => some (.rbImm n)
  | .ro, .ra => some (.roRa 0)
  | .j, .lit n => some (.j 0 n)
  | .jc, .lit n => some (.jc 0 n)
  | _, _ => none

/-- The instruction a line without blanks spells (R76), if it spells one. -/
def parseLine (l : List Char) : Option Instr :=
  match splitEquals l with
  | none => none
  | some (m, o) =>
    match mnemonicOf m, operandOf o with
    | some m, some o => formOf m o
    | _, _ => none

/-- What one source line is. -/
inductive LineResult where
  /-- A blank line or a whole-line comment: ignored (R74). -/
  | ignored
  /-- An accepted line. -/
  | accepted (i : Instr)
  /-- An `AssembleSyntaxError` (R80). -/
  | syntaxError
deriving DecidableEq, Repr

/-- One source line (R74, R75): a comment when its first non-blank character is '#' or ';'. -/
def assembleLine (l : List Char) : LineResult :=
  match deleteBlanks l with
  | [] => .ignored
  | c :: rest =>
    if c = '#' ∨ c = ';' then .ignored
    else
      match parseLine (c :: rest) with
      | some i => .accepted i
      | none => .syntaxError

/-- The assembler's output (R80): the image, and for each rejected line its number (from 1) and raw text. -/
structure Assembly where
  image : List Byte
  diagnostics : List (Nat × List Char)
deriving DecidableEq, Repr

/-- The lines of a source from line number `n` on: a rejected line is reported and emits no byte (R80). -/
def assembleLines : Nat → List (List Char) → Assembly
  | _, [] => { image := [], diagnostics := [] }
  | n, l :: rest =>
    let r := assembleLines (n + 1) rest
    match assembleLine l with
    | .ignored => r
    | .accepted i => { r with image := encodeByte i :: r.image }
    | .syntaxError => { r with diagnostics := (n, l) :: r.diagnostics }

/-- The assembler: collect and continue over all lines (R80). A line ends as a line of a text image does (log
15). -/
def assemble (text : List Char) : Assembly := assembleLines 1 (splitLines text)

/-! ### Disassembly -/

/-- The decimal numeral of an immediate: one digit. -/
def dec (n : Imm) : List Char := [Char.ofNat ('0'.toNat + n.toNat)]

/-- The name of a destination (R82). -/
def destName : Dest → List Char
  | .ra => ['R', 'A']
  | .rb => ['R', 'B']
  | .ro => ['R', 'O']
  | .none => []

/-- `dis(b)` (R82; the spec's decision D20), defined for every byte. -/
def dis (b : Byte) : List Char :=
  if (describe b).isJump then ['J', '='] ++ dec (describe b).immediateValue
  else if (describe b).isConditionalJump then ['J', 'C', '='] ++ dec (describe b).immediateValue
  else
    match (describe b).opcodeClass with
    | .aluAdd => destName (describe b).destination ++ ['=', 'R', 'A', '+', 'R', 'B']
    | .aluSub => destName (describe b).destination ++ ['=', 'R', 'A', '-', 'R', 'B']
    | .loadImm => destName (describe b).destination ++ ['='] ++ dec (describe b).immediateValue
    | .output => ['R', 'O', '=', 'R', 'A']
    | .unknown => ['U', 'N', 'K', 'N', 'O', 'W', 'N']

/-! ### Trace records -/

/-- The minimum content of one trace line (43_execution_engine.md R170): the program counter, the mnemonic form,
and the output value of an instruction that writes RO. -/
structure TraceRecord where
  pc : Addr
  mnemonic : List Char
  output : Option Word
deriving DecidableEq, Repr

/-- The trace records of a sequence of events, one per executed instruction (R170). An output event belongs to the
retire event before it (R161). -/
def traceRecords : List Event → List TraceRecord
  | [] => []
  | .retire pc b :: .output v :: rest => { pc, mnemonic := dis b, output := some v } :: traceRecords rest
  | .retire pc b :: rest => { pc, mnemonic := dis b, output := none } :: traceRecords rest
  | .output _ :: rest => traceRecords rest

end Sys2Proof.Machine
end

