-- ==== Sys2Proof/Machine/Engine.lean ====
section
/-! DEFINITION. The engine as 43_execution_engine.md R161 writes it, over the instruction descriptor, beside the
step that runs one meaning per instruction; and runs of many steps (R171). -/

namespace Sys2Proof.Machine

/-- The step of R161 for a byte `b` fetched at PC, line by line as the rule writes it, over the descriptor of `b`.
Reads are of the state at the start of the step; `d.destination = RA`, otherwise RB, as the rule has it. -/
def executeByte (b : Byte) (s : State) : State :=
  let d := describe b
  let fetched := s.emit (.retire s.pc b)
  if jumpTaken b s.carry then
    { fetched with pc := BitVec.ofNat 8 (d.immediateValue.toNat % s.mem.size) }
  else
    match d.opcodeClass with
    | .aluAdd | .aluSub =>
      let r := alu s.ra s.rb (decide (d.opcodeClass = .aluSub))
      if d.destination = .ra then advance { fetched with ra := r.1, carry := r.2 }
      else advance { fetched with rb := r.1, carry := r.2 }
    | .loadImm =>
      if d.destination = .ra then advance { fetched with ra := d.immediateValue.setWidth 8 }
      else advance { fetched with rb := d.immediateValue.setWidth 8 }
    | .output => advance { fetched.emit (.output s.ra) with ro := s.ra }
    | .unknown => { s with errPC := s.pc, errByte := b, status := .haltedError }

/-- `k` steps (R171). A halted state stays as it is (R167). -/
def runSteps : Nat → State → Host.Outcome State Fault Refusal
  | 0, s => .next s
  | k + 1, s =>
    match step s with
    | .next t => runSteps k t
    | .fault r => .fault r
    | .refused r => .refused r

end Sys2Proof.Machine
end

