-- ==== Sys2Proof/Machine/Controller.lean ====
section
/-! DEFINITION. The execution controller and the ports of the core (43_execution_engine.md R168, R169, R173;
70_reset_and_hazards.md R230). The controller of R169 is single-cycle; the two-cycle controller that R169 names as
equivalent stands beside it. -/

namespace Sys2Proof.Machine

/-- The core's inputs at one rising clock edge (R173). `imem_rdata` is not among them: the memory is in State, and
the port shows the byte at PC (20_memory.md R43). -/
structure Pins where
  /-- Synchronous active-high reset. -/
  rst : Bool
  /-- Continuous mode. -/
  run : Bool
  /-- The one-cycle pulse of step mode. -/
  step : Bool
deriving DecidableEq, Repr

/-- `en = run ∨ step` (R169). -/
def Pins.en (p : Pins) : Bool := p.run || p.step

/-- One rising edge (R169, R230): reset wins; otherwise an enabled core commits one step. A step of a halted core
changes nothing (R167). -/
def clock (p : Pins) (s : State) : Host.Outcome State Fault Refusal :=
  if p.rst then .next s.applyReset
  else if p.en then step s
  else .next s

/-- A sequence of rising edges. -/
def clocks : List Pins → State → Host.Outcome State Fault Refusal
  | [], s => .next s
  | p :: rest, s =>
    match clock p s with
    | .next t => clocks rest t
    | .fault r => .fault r
    | .refused r => .refused r

/-- How many of a sequence of edges enable the core. -/
def enabledEdges : List Pins → Nat
  | [] => 0
  | p :: rest => (if p.en then 1 else 0) + enabledEdges rest

/-- The outputs that show the state alone (R173), `imem_addr` among them (20_memory.md R43). -/
structure Ports where
  imemAddr : Addr
  ro : Word
  haltedNormal : Bool
  haltedError : Bool
  errPC : Addr
  errByte : Byte
  dbgPC : Addr
  dbgRA : Word
  dbgRB : Word
  dbgCarry : Bool
deriving DecidableEq, Repr

/-- The level outputs of a state (R173). -/
def ports (s : State) : Ports where
  imemAddr := s.pc
  ro := s.ro
  haltedNormal := s.status == .haltedNormal
  haltedError := s.status == .haltedError
  errPC := s.errPC
  errByte := s.errByte
  dbgPC := s.pc
  dbgRA := s.ra
  dbgRB := s.rb
  dbgCarry := s.carry

/-- The strobes of one cycle (R173). `retire` is `retire_valid` together with `retire_pc` and `retire_byte`, `out`
is `out_valid` together with the value that `ro` carries: where the valid signal is low the model gives the data no
value (log 17). -/
structure Strobes where
  out : Option Word
  retire : Option (Addr × Byte)
deriving DecidableEq, Repr

/-- The events a cycle emits: none in a reset cycle or a disabled one, else those of the step (R169, R230). -/
def cycleEvents (p : Pins) (s : State) : List Event :=
  if p.rst || !p.en then []
  else
    match step s with
    | .next t => t.trace.drop s.trace.length
    | .fault _ => []
    | .refused _ => []

/-- The value of an output event. -/
def Event.outputValue : Event → Option Word
  | .output v => some v
  | .retire _ _ => none

/-- The PC and byte of a retire event. -/
def Event.retired : Event → Option (Addr × Byte)
  | .output _ => none
  | .retire pc b => some (pc, b)

/-- The strobes of the cycle that ends at an edge with inputs `p` (R123, R170, R173). -/
def strobes (p : Pins) (s : State) : Strobes where
  out := ((cycleEvents p s).filterMap Event.outputValue).head?
  retire := ((cycleEvents p s).filterMap Event.retired).head?

/-! ### The two-cycle controller -/

/-- The core with an instruction latch: `none` before the fetch cycle of an instruction, the fetched byte before its
execute cycle. -/
structure TwoCycle where
  core : State
  latch : Option Byte
deriving DecidableEq, Repr

/-- One rising edge of the two-cycle controller: an enabled Running core fetches into an empty latch, and executes a
full one and empties it. Reset empties the latch (log 18). -/
def twoCycleClock (p : Pins) (t : TwoCycle) : Host.Outcome TwoCycle Fault Refusal :=
  if p.rst then .next { core := t.core.applyReset, latch := none }
  else if p.en && t.core.status == .running then
    match t.latch with
    | none =>
      match fetch t.core with
      | some b => .next { t with latch := some b }
      | none => .fault .fetchOutsideMemory
    | some b =>
      match exec (decodeByte b) t.core with
      | .next s => .next { core := s, latch := none }
      | .fault r => .fault r
      | .refused r => .refused r
  else .next t

/-- A sequence of rising edges of the two-cycle controller. -/
def twoCycleClocks : List Pins → TwoCycle → Host.Outcome TwoCycle Fault Refusal
  | [], t => .next t
  | p :: rest, t =>
    match twoCycleClock p t with
    | .next u => twoCycleClocks rest u
    | .fault r => .fault r
    | .refused r => .refused r

end Sys2Proof.Machine
end

