-- ==== Sys2Proof/Safety.lean ====
section
/-! DEFINITION. The terms claims are stated in: what a run shows, and the invariants of the machine. -/

namespace Sys2Proof.Machine

/-! ### What a run shows (43_execution_engine.md R166, R170, R171) -/

/-- The sequence of Output values (R171). -/
def outputs (s : State) : List Word := s.trace.filterMap Event.outputValue

/-- The sequence of Retire events (R171). -/
def retires (s : State) : List (Addr × Byte) := s.trace.filterMap Event.retired

/-- Whether a run has ended here (R167, R171). -/
def State.halted (s : State) : Bool := s.status != .running

/-- The steps taken since reset (R166): one per executed instruction, and one for the step that raised
DecodeUnknown. -/
def stepsTaken (s : State) : Nat :=
  (retires s).length + (if s.status = .haltedError then 1 else 0)

/-- The registers of 10_state.md R20: the state without the memory and the trace. -/
structure Registers where
  ra : Word
  rb : Word
  ro : Word
  pc : Addr
  carry : Bool
  status : Status
  errPC : Addr
  errByte : Byte
deriving DecidableEq, Repr

/-- The registers of a state. -/
def State.registers (s : State) : Registers where
  ra := s.ra
  rb := s.rb
  ro := s.ro
  pc := s.pc
  carry := s.carry
  status := s.status
  errPC := s.errPC
  errByte := s.errByte

/-- The observation of a run (R171), as far as it has come: the events, and the end with the final registers where
it has ended. -/
structure Observation where
  outputs : List Word
  retires : List (Addr × Byte)
  ending : Option Registers
deriving DecidableEq, Repr

/-- What has been observed when the run stands at a state. -/
def observe (s : State) : Observation where
  outputs := outputs s
  retires := retires s
  ending := if s.halted then some s.registers else none

/-! ### Invariants -/

/-- The bytes that raise DecodeUnknown at a given Carry (60_exceptions.md R200), by their bits. -/
def raisesUnknown (b : Byte) (carry : Bool) : Bool :=
  !b[7] && (!b[6] || carry) && b[5] && b[4]

/-- The machine's invariant. -/
structure CoreInv (s : State) : Prop where
  /-- The memory keeps its canonical form, with 1 ≤ N ≤ 256 (00_scope.md R7). -/
  memWf : s.mem.wf
  /-- PC is a valid index into the memory, in the halted states too (10_state.md R25). -/
  pcInMemory : s.pc.toNat < s.mem.size
  /-- The normal end is at the last address (43_execution_engine.md R165). -/
  normalAtEnd : s.status = .haltedNormal → s.pc.toNat + 1 = s.mem.size
  /-- The error record names the PC and the byte there, which raises DecodeUnknown (60_exceptions.md R200, R201). -/
  errorRecord : s.status = .haltedError →
    s.errPC = s.pc ∧ s.mem.read s.pc.toNat = some s.errByte ∧ raisesUnknown s.errByte s.carry = true
  /-- The error record is written on entry to HaltedError only (10_state.md R29, R33). -/
  noErrorRecord : s.status ≠ .haltedError → s.errPC = 0 ∧ s.errByte = 0

/-- The trace is true to the memory: every retire event names an address of the memory and the byte there
(43_execution_engine.md R170, 20_memory.md R42). -/
def TraceFaithful (s : State) : Prop :=
  ∀ pc b, Event.retire pc b ∈ s.trace → s.mem.read pc.toNat = some b

/-- RO is the last output, or its reset value when there is none (10_state.md R22, 41_register_writes.md R123). -/
def RoIsLastOutput (s : State) : Prop := s.ro = (outputs s).getLast?.getD 0

/-- The bytes that can take the ALU path, by their bits (30_encoding.md R61 to R65). -/
def canTakeAluPath (b : Byte) : Bool := !b[7] && !b[5] && !b[3]

/-- Carry is set only after an instruction that can take the ALU path (10_state.md R27, 70_reset_and_hazards.md
R235). -/
def CarryFromAlu (s : State) : Prop :=
  s.carry = true → ∃ pc b, Event.retire pc b ∈ s.trace ∧ canTakeAluPath b = true

end Sys2Proof.Machine
end

