-- ==== Sys2Proof/Certificates/Slice0/Obligations.lean ====
section
/-! DEFINITION. The statements for the provers. Each docstring names the rule of spec/ it formalises. Where a rule
stands on one of the spec's own decisions (92_eei_decisions.md), the docstring names it. -/

open Sys2Proof Sys2Proof.Machine

namespace Sys2Proof.Expected

/-! What the rules give, written with no operation of the model, so that a statement says the values itself. -/

/-- PC after `advance()` (43_execution_engine.md R164). -/
def pcAfter (s : State) : Addr := if s.pc.toNat + 1 = s.mem.size then s.pc else s.pc + 1

/-- Status after `advance()` (R164). -/
def statusAfter (s : State) : Status := if s.pc.toNat + 1 = s.mem.size then .haltedNormal else s.status

/-- A state after an instruction that took the retire event of byte `b` and advanced. -/
def advanced (b : Byte) (s : State) : State :=
  { s with pc := pcAfter s, status := statusAfter s, trace := s.trace ++ [.retire s.pc b] }

/-- A taken jump: bit 7, or bit 6 while Carry = 0 (42_control_transfer.md R140). -/
def jumps (b : Byte) (s : State) : Prop := b[7] = true ∨ (b[6] = true ∧ s.carry = false)

/-- The four values of D = b[5:4] (30_encoding.md R63), as a number. -/
def dField (b : Byte) : Nat := b.toNat / 16 % 4

/-- An agreement on all that an instruction can read: RA, RB, PC, Carry, Status and the memory (10_state.md R22,
R30). -/
def agreeOnReadable (s t : State) : Prop :=
  s.ra = t.ra ∧ s.rb = t.rb ∧ s.pc = t.pc ∧ s.carry = t.carry ∧ s.status = t.status ∧ s.mem = t.mem

/-- Two states that the bytes `b` and `c` bring `s` to, alike in all but the byte they record: the retire event,
with the same outputs after it, or ErrByte, with no event. -/
def sameButByte (b c : Byte) (s t u : State) : Prop :=
  { t with errByte := u.errByte, trace := u.trace } = u ∧
    ((t.status = .haltedError ∧ t.trace = s.trace ∧ u.trace = s.trace ∧ t.errByte = b ∧ u.errByte = c) ∨
      (t.errByte = s.errByte ∧ u.errByte = s.errByte ∧ ∃ outs : List Word,
        t.trace = s.trace ++ .retire s.pc b :: outs.map .output ∧
        u.trace = s.trace ++ .retire s.pc c :: outs.map .output))

end Sys2Proof.Expected

open Sys2Proof.Expected

/-! ### Reset and the controller -/

/-- 10_state.md R33 and 70_reset_and_hazards.md R231: what every register holds after reset, at creation and after
the reset input. The zero in ErrPC and ErrByte is the spec's decision D11. -/
def Obligations.ResetHoldsSpecValues : Prop :=
  ∀ s, (s = State.reset ∨ ∃ u : State, s = u.applyReset) →
    s.ra = 0 ∧ s.rb = 0 ∧ s.ro = 0 ∧ s.pc = 0 ∧ s.carry = false ∧ s.status = .running ∧
      s.errPC = 0 ∧ s.errByte = 0 ∧ (ports s).imemAddr = 0

/-- 70_reset_and_hazards.md R230 (decision D15): an edge with rst = 1 gives every register its reset value, commits
no step, and is the only way out of a halted state; R232: it does not change the memory. -/
def Obligations.ResetInputRestoresRegisters : Prop :=
  (∀ p s, p.rst = true → ∃ t, clock p s = .next t ∧ t.registers = State.reset.registers ∧ t.mem = s.mem ∧
    cycleEvents p s = []) ∧
  (∀ p s t, p.rst = false → s.status ≠ .running → clock p s = .next t → t = s)

/-- 43_execution_engine.md R168, R169 (decisions D13, D24): without reset, any pattern of `run` and `step` gives
exactly the run with one step per edge at which `run` or `step` is high, which are the enabled edges. -/
def Obligations.EnabledEdgesAreSteps : Prop :=
  ∀ (ps : List Pins) (s : State), (∀ p ∈ ps, p.rst = false) →
    clocks ps s = runSteps (ps.countP fun p => decide (p.run = true ∨ p.step = true)) s ∧
    enabledEdges ps = ps.countP fun p => decide (p.run = true ∨ p.step = true)

/-- 43_execution_engine.md R169 (decision D13): the two-cycle controller commits the same change per instruction
(two enabled cycles a step), and no core state it shows is other than a state of the run. The latch, and when it is
filled and emptied, is the model's own (log 18, DESIGN CHOICE: R169 gives the two cycles as an example), and so is
that steps of a halted core answer the same state (log 3, DEDUCED). -/
def Obligations.TwoCycleControllerIsEquivalent : Prop :=
  (∀ (k : Nat) (s t : State), runSteps k s = .next t →
    twoCycleClocks (List.replicate (2 * k) { rst := false, run := true, step := false }) { core := s, latch := none }
      = .next { core := t, latch := none }) ∧
  (∀ (ps : List Pins) (s : State) (u : TwoCycle), (∀ p ∈ ps, p.rst = false) →
    twoCycleClocks ps { core := s, latch := none } = .next u → ∃ k, runSteps k s = .next u.core)

/-- 43_execution_engine.md R173: the level outputs show the state's registers; 20_memory.md R43: `imem_addr` is
PC. -/
def Obligations.PortsShowRegisters : Prop :=
  ∀ s, (ports s).imemAddr = s.pc ∧ (ports s).ro = s.ro ∧
    ((ports s).haltedNormal = true ↔ s.status = .haltedNormal) ∧
    ((ports s).haltedError = true ↔ s.status = .haltedError) ∧
    (ports s).errPC = s.errPC ∧ (ports s).errByte = s.errByte ∧ (ports s).dbgPC = s.pc ∧
    (ports s).dbgRA = s.ra ∧ (ports s).dbgRB = s.rb ∧ (ports s).dbgCarry = s.carry

/-- 43_execution_engine.md R173, R170, 41_register_writes.md R123: a cycle's strobes are high exactly for the events
it adds to the run, and with `out_valid` the port `ro` carries the value (log 17). -/
def Obligations.StrobesMatchEvents : Prop :=
  ∀ p s t, p.rst = false → clock p s = .next t →
    outputs t = outputs s ++ (strobes p s).out.toList ∧
    retires t = retires s ++ (strobes p s).retire.toList ∧
    (∀ v, (strobes p s).out = some v → (ports t).ro = v)

/-! ### Encoding -/

/-- 30_encoding.md R60, R69: decoding the bytes of any instruction, with every field at every value, gives it back
and leaves the rest. -/
def Obligations.DecodeOfEncode : Prop :=
  ∀ (i : Instr) (rest : List Byte), decode (encode i ++ rest) = .ok (i, rest)

/-- 30_encoding.md R60, R68: decoding never fails on a byte, and what it reads is exactly the bytes of the
instruction it gives. -/
def Obligations.DecodedBytesAreEncoded : Prop :=
  (∀ bytes i rest, decode bytes = .ok (i, rest) → bytes = encode i ++ rest) ∧
  (∀ bytes, (∃ e, decode bytes = .error e) ↔ bytes = [])

/-- 30_encoding.md R69: the class of every byte value, by its range. -/
def Obligations.OpcodeMapByRange : Prop :=
  ∀ b : Byte,
    (0x80 ≤ b.toNat ↔ ∃ x n, decodeByte b = .j x n) ∧
    (0x40 ≤ b.toNat ∧ b.toNat ≤ 0x7F ↔ ∃ f n, decodeByte b = .jc f n) ∧
    (b.toNat ≤ 0x03 ↔ ∃ x, decodeByte b = .raAdd x) ∧
    (0x04 ≤ b.toNat ∧ b.toNat ≤ 0x07 ↔ ∃ x, decodeByte b = .raSub x) ∧
    (0x08 ≤ b.toNat ∧ b.toNat ≤ 0x0F ↔ ∃ n, decodeByte b = .raImm n) ∧
    (0x10 ≤ b.toNat ∧ b.toNat ≤ 0x13 ↔ ∃ x, decodeByte b = .rbAdd x) ∧
    (0x14 ≤ b.toNat ∧ b.toNat ≤ 0x17 ↔ ∃ x, decodeByte b = .rbSub x) ∧
    (0x18 ≤ b.toNat ∧ b.toNat ≤ 0x1F ↔ ∃ n, decodeByte b = .rbImm n) ∧
    (0x20 ≤ b.toNat ∧ b.toNat ≤ 0x2F ↔ ∃ x, decodeByte b = .roRa x) ∧
    (0x30 ≤ b.toNat ∧ b.toNat ≤ 0x3F ↔ ∃ x, decodeByte b = .unknown x)

/-- 30_encoding.md R68: the descriptor of every byte, from its fields read as numbers. -/
def Obligations.DescriptorOfEveryByte : Prop :=
  ∀ b : Byte,
    (describe b).destination =
      (if dField b = 0 then .ra else if dField b = 1 then .rb else if dField b = 2 then .ro else .none) ∧
    (describe b).opcodeClass =
      (if dField b = 3 then .unknown else if dField b = 2 then .output
       else if b.toNat / 8 % 2 = 1 then .loadImm else if b.toNat / 4 % 2 = 0 then .aluAdd else .aluSub) ∧
    ((describe b).usesImmediate = true ↔ (describe b).opcodeClass = .loadImm) ∧
    (describe b).immediateValue.toNat = b.toNat % 8 ∧
    ((describe b).isJump = true ↔ b.toNat / 128 = 1) ∧
    ((describe b).isConditionalJump = true ↔ b.toNat / 64 % 2 = 1)

/-- 95_test_vectors.md E2 and the spot checks of table DC: single words read as the spec reads them. -/
def Obligations.DecodesWrittenWords : Prop :=
  decode [0b00001000#8] = .ok (.raImm 0, []) ∧
  decode [0b00011001#8] = .ok (.rbImm 1, []) ∧
  decode [0b00100000#8] = .ok (.roRa 0, []) ∧
  decode [0b00000111#8] = .ok (.raSub 3, []) ∧
  decode [0b00010100#8] = .ok (.rbSub 0, []) ∧
  decode [0b01001011#8] = .ok (.jc 1 3, []) ∧
  decode [0b10011111#8] = .ok (.j 3 7, []) ∧
  decode [0b00111010#8] = .ok (.unknown 10, [])

/-- 30_encoding.md R70 (decision D9): two instructions that differ only in bits their path ignores have the same
effect and emit the same events, but for the byte that the new retire event, or ErrByte, records; not-taken JC bytes
too. -/
def Obligations.IgnoredBitsChangeNothingElse : Prop :=
  ∀ (i k : Instr) (s : State),
    ((∃ x y n, i = .j x n ∧ k = .j y n) ∨ (∃ x y, i = .raAdd x ∧ k = .raAdd y) ∨
      (∃ x y, i = .raSub x ∧ k = .raSub y) ∨ (∃ x y, i = .rbAdd x ∧ k = .rbAdd y) ∨
      (∃ x y, i = .rbSub x ∧ k = .rbSub y) ∨ (∃ x y, i = .roRa x ∧ k = .roRa y) ∨
      (∃ x y, i = .unknown x ∧ k = .unknown y) ∨
      (s.carry = true ∧ ∃ f n m, (f = 0 ∨ f = 2) ∧ n[2] = m[2] ∧ i = .jc f n ∧ k = .jc f m) ∨
      (s.carry = true ∧ ∃ f g n m, (f = 4 ∨ f = 5) ∧ (g = 4 ∨ g = 5) ∧ i = .jc f n ∧ k = .jc g m) ∨
      (s.carry = true ∧ ∃ f g n m, (f = 6 ∨ f = 7) ∧ (g = 6 ∨ g = 7) ∧ i = .jc f n ∧ k = .jc g m)) →
    ∃ t u, exec i s = .next t ∧ exec k s = .next u ∧ sameButByte (encodeByte i) (encodeByte k) s t u ∧
      outputs t = outputs u ∧ (retires t).map Prod.fst = (retires u).map Prod.fst ∧
      (t.status ≠ .haltedError → t.errByte = u.errByte)

/-! ### The ALU -/

/-- 40_alu.md R100: result and carry of both operations, at every width. -/
def Obligations.AluResultAndCarry : Prop :=
  ∀ (w : Nat) (a b : BitVec w),
    (alu a b false).1.toNat = (a.toNat + b.toNat) % 2 ^ w ∧
    ((alu a b false).2 = true ↔ a.toNat + b.toNat > 2 ^ w - 1) ∧
    ((alu a b true).1.toNat : Int) = ((a.toNat : Int) - (b.toNat : Int)) % (2 ^ w : Int) ∧
    ((alu a b true).2 = true ↔ a.toNat < b.toNat)

/-- 40_alu.md R101: the sum's low 8 bits, its bit 8 as the carry, and commutation. -/
def Obligations.AdditionIsNineBitSum : Prop :=
  ∀ a b : Word,
    (alu a b false).1 = (a.setWidth 9 + b.setWidth 9).setWidth 8 ∧
    (alu a b false).2 = (a.setWidth 9 + b.setWidth 9).getLsbD 8 ∧
    alu a b false = alu b a false

/-- 40_alu.md R102: after a subtraction, also one that a not-taken JC falls through to, a following JC jumps when RA
was at least RB; when RA was less it does not jump, and runs as its byte with bits 7 and 6 cleared
(42_control_transfer.md R142, decision D7). -/
def Obligations.JumpAfterSubtractionComparesOperands : Prop :=
  ∀ (i : Instr) (s : State) (f : BitVec 3) (n : Imm),
    ((∃ x, i = .raSub x) ∨ (∃ x, i = .rbSub x) ∨
      (s.carry = true ∧ ∃ g m, (g = 0 ∨ g = 2) ∧ 4 ≤ m.toNat ∧ i = .jc g m)) →
    ∃ t, exec i s = .next t ∧
      (s.rb.toNat ≤ s.ra.toNat →
        exec (.jc f n) t = .next { t with
          pc := BitVec.ofNat 8 (n.toNat % t.mem.size)
          trace := t.trace ++ [.retire t.pc (encodeByte (.jc f n))] }) ∧
      (s.ra.toNat < s.rb.toNat → t.carry = true ∧ ∃ u v, exec (.jc f n) t = .next u ∧
        exec (decodeByte (encodeByte (.jc f n) &&& 0x3F#8)) t = .next v ∧
        sameButByte (encodeByte (.jc f n)) (encodeByte (.jc f n) &&& 0x3F#8) t u v ∧
        u.pc = (if f.toNat < 6 then pcAfter t else t.pc))

/-! ### The arithmetic instructions -/

/-- 40_alu.md R106: RA=RA+RB, and the not-taken JC that falls through to it. -/
def Obligations.RaAddWritesSumAndCarry : Prop :=
  ∀ s : State,
    (∀ x, (encodeByte (.raAdd x)).toNat = 0x00 + x.toNat ∧
      exec (.raAdd x) s = .next { advanced (encodeByte (.raAdd x)) s with
        ra := s.ra + s.rb, carry := decide (s.ra.toNat + s.rb.toNat > 255) }) ∧
    (∀ n : Imm, n.toNat < 4 → s.carry = true →
      (encodeByte (.jc 0 n)).toNat = 0x40 + n.toNat ∧
      exec (.jc 0 n) s = .next { advanced (encodeByte (.jc 0 n)) s with
        ra := s.ra + s.rb, carry := decide (s.ra.toNat + s.rb.toNat > 255) })

/-- 40_alu.md R107: RA=RA-RB, and the not-taken JC that falls through to it. -/
def Obligations.RaSubWritesDifferenceAndBorrow : Prop :=
  ∀ s : State,
    (∀ x, (encodeByte (.raSub x)).toNat = 0x04 + x.toNat ∧
      exec (.raSub x) s = .next { advanced (encodeByte (.raSub x)) s with
        ra := s.ra - s.rb, carry := decide (s.ra.toNat < s.rb.toNat) }) ∧
    (∀ n : Imm, 4 ≤ n.toNat → s.carry = true →
      (encodeByte (.jc 0 n)).toNat = 0x40 + n.toNat ∧
      exec (.jc 0 n) s = .next { advanced (encodeByte (.jc 0 n)) s with
        ra := s.ra - s.rb, carry := decide (s.ra.toNat < s.rb.toNat) })

/-- 40_alu.md R108: RB=RA+RB, and the not-taken JC that falls through to it. -/
def Obligations.RbAddWritesSumAndCarry : Prop :=
  ∀ s : State,
    (∀ x, (encodeByte (.rbAdd x)).toNat = 0x10 + x.toNat ∧
      exec (.rbAdd x) s = .next { advanced (encodeByte (.rbAdd x)) s with
        rb := s.ra + s.rb, carry := decide (s.ra.toNat + s.rb.toNat > 255) }) ∧
    (∀ n : Imm, n.toNat < 4 → s.carry = true →
      (encodeByte (.jc 2 n)).toNat = 0x50 + n.toNat ∧
      exec (.jc 2 n) s = .next { advanced (encodeByte (.jc 2 n)) s with
        rb := s.ra + s.rb, carry := decide (s.ra.toNat + s.rb.toNat > 255) })

/-- 40_alu.md R109: RB=RA-RB, in this operand order, and the not-taken JC that falls through to it. -/
def Obligations.RbSubWritesDifferenceAndBorrow : Prop :=
  ∀ s : State,
    (∀ x, (encodeByte (.rbSub x)).toNat = 0x14 + x.toNat ∧
      exec (.rbSub x) s = .next { advanced (encodeByte (.rbSub x)) s with
        rb := s.ra - s.rb, carry := decide (s.ra.toNat < s.rb.toNat) }) ∧
    (∀ n : Imm, 4 ≤ n.toNat → s.carry = true →
      (encodeByte (.jc 2 n)).toNat = 0x50 + n.toNat ∧
      exec (.jc 2 n) s = .next { advanced (encodeByte (.jc 2 n)) s with
        rb := s.ra - s.rb, carry := decide (s.ra.toNat < s.rb.toNat) })

/-! ### The immediate loads and the output -/

/-- 41_register_writes.md R120: RA=n, and the not-taken JC that falls through to it. -/
def Obligations.RaImmLoadsImmediate : Prop :=
  ∀ (s : State) (n : Imm),
    ((encodeByte (.raImm n)).toNat = 0x08 + n.toNat ∧
      exec (.raImm n) s = .next { advanced (encodeByte (.raImm n)) s with ra := BitVec.ofNat 8 n.toNat }) ∧
    (s.carry = true → (encodeByte (.jc 1 n)).toNat = 0x48 + n.toNat ∧
      exec (.jc 1 n) s = .next { advanced (encodeByte (.jc 1 n)) s with ra := BitVec.ofNat 8 n.toNat })

/-- 41_register_writes.md R121: RB=n, and the not-taken JC that falls through to it. -/
def Obligations.RbImmLoadsImmediate : Prop :=
  ∀ (s : State) (n : Imm),
    ((encodeByte (.rbImm n)).toNat = 0x18 + n.toNat ∧
      exec (.rbImm n) s = .next { advanced (encodeByte (.rbImm n)) s with rb := BitVec.ofNat 8 n.toNat }) ∧
    (s.carry = true → (encodeByte (.jc 3 n)).toNat = 0x58 + n.toNat ∧
      exec (.jc 3 n) s = .next { advanced (encodeByte (.jc 3 n)) s with rb := BitVec.ofNat 8 n.toNat })

/-- 41_register_writes.md R122: RO=RA with its output event, and the not-taken JC that falls through to it. -/
def Obligations.RoRaCopiesAndOutputs : Prop :=
  ∀ s : State,
    (∀ x, (encodeByte (.roRa x)).toNat = 0x20 + x.toNat ∧
      exec (.roRa x) s = .next { advanced (encodeByte (.roRa x)) s with
        ro := s.ra, trace := s.trace ++ [.retire s.pc (encodeByte (.roRa x)), .output s.ra] }) ∧
    (∀ (f : BitVec 3) (n : Imm), (f = 4 ∨ f = 5) → s.carry = true →
      (encodeByte (.jc f n)).toNat / 16 = 6 ∧
      exec (.jc f n) s = .next { advanced (encodeByte (.jc f n)) s with
        ro := s.ra, trace := s.trace ++ [.retire s.pc (encodeByte (.jc f n)), .output s.ra] })

/-! ### Control transfer -/

/-- 42_control_transfer.md R141: J=n. -/
def Obligations.JumpSetsPcOnly : Prop :=
  ∀ (s : State) (x : BitVec 4) (n : Imm),
    (encodeByte (.j x n)).toNat = 0x80 + 8 * x.toNat + n.toNat ∧
    exec (.j x n) s = .next { s with
      pc := BitVec.ofNat 8 (n.toNat % s.mem.size)
      trace := s.trace ++ [.retire s.pc (encodeByte (.j x n))] }

/-- 42_control_transfer.md R142 (decision D7): JC=n jumps while Carry = 0; otherwise it runs as its byte with bits 7
and 6 cleared, but for the byte that the retire event, or ErrByte, records. -/
def Obligations.ConditionalJumpOrFallThrough : Prop :=
  ∀ (s : State) (f : BitVec 3) (n : Imm),
    (encodeByte (.jc f n)).toNat = 0x40 + 8 * f.toNat + n.toNat ∧
    (s.carry = false → exec (.jc f n) s = .next { s with
      pc := BitVec.ofNat 8 (n.toNat % s.mem.size)
      trace := s.trace ++ [.retire s.pc (encodeByte (.jc f n))] }) ∧
    (s.carry = true → ∃ t u, exec (.jc f n) s = .next t ∧
      exec (decodeByte (encodeByte (.jc f n) &&& 0x3F#8)) s = .next u ∧
      { t with errByte := u.errByte, trace := u.trace } = u ∧ outputs t = outputs u ∧
      (6 ≤ f.toNat → t.errByte = encodeByte (.jc f n) ∧ t.trace = s.trace) ∧
      (f.toNat < 6 → t.errByte = s.errByte ∧ retires t = retires s ++ [(s.pc, encodeByte (.jc f n))]))

/-- 42_control_transfer.md R147, R143 (decision D6), 20_memory.md R47: a step that takes a jump writes PC alone, with
b[2:0] mod N, and its target is one of the addresses 0 to 7. -/
def Obligations.TakenJumpStep : Prop :=
  ∀ s b, s.status = .running → fetch s = some b → jumps b s →
    ∃ t, step s = .next t ∧
      t = { s with pc := t.pc, trace := s.trace ++ [.retire s.pc b] } ∧
      t.pc.toNat = b.toNat % 8 % s.mem.size ∧ t.pc.toNat < 8

/-- 42_control_transfer.md R148: a taken jump to its own address repeats forever. -/
def Obligations.SelfJumpRunsForever : Prop :=
  ∀ (k : Nat) (s : State) (b : Byte), s.status = .running → fetch s = some b → jumps b s →
    s.pc.toNat = b.toNat % 8 →
    runSteps k s = .next { s with trace := s.trace ++ List.replicate k (.retire s.pc b) }

/-! ### The one exception -/

/-- 60_exceptions.md R201 (decisions D8, D11): what raising DecodeUnknown does, from both kinds of byte of R200; and
no later step clears it. -/
def Obligations.ReservedPatternRecordsError : Prop :=
  ∀ s : State,
    (∀ x, (encodeByte (.unknown x)).toNat = 0x30 + x.toNat ∧
      exec (.unknown x) s = .next { s with
        errPC := s.pc, errByte := encodeByte (.unknown x), status := .haltedError }) ∧
    (∀ (f : BitVec 3) (n : Imm), (f = 6 ∨ f = 7) → s.carry = true →
      (encodeByte (.jc f n)).toNat / 16 = 7 ∧
      exec (.jc f n) s = .next { s with
        errPC := s.pc, errByte := encodeByte (.jc f n), status := .haltedError }) ∧
    (s.status = .haltedError → ∀ u, step s = .next u → u = s)

/-- 60_exceptions.md R200 (decision D8): which bytes raise DecodeUnknown in a step. -/
def Obligations.ErrorHaltIffReservedByteRuns : Prop :=
  ∀ s t b, s.status = .running → fetch s = some b → step s = .next t →
    (t.status = .haltedError ↔
      (0x30 ≤ b.toNat ∧ b.toNat ≤ 0x3F) ∨ (0x70 ≤ b.toNat ∧ b.toNat ≤ 0x7F ∧ s.carry = true))

/-! ### The step -/

/-- 43_execution_engine.md R161, R162: in a running core, the byte at PC is fetched, decoded and run: the step is
`exec` of the decoded instruction and adds nothing around it. -/
def Obligations.StepRunsDecodedInstruction : Prop :=
  ∀ (s : State) (b : Byte) (i : Instr), s.status = .running → s.mem.read s.pc.toNat = some b →
    decode [b] = .ok (i, []) → step s = exec i s

/-- 43_execution_engine.md R161: the step, one meaning per instruction, is the engine that the rule writes over the
descriptor of the fetched byte. -/
def Obligations.StepIsDescriptorEngine : Prop :=
  ∀ s b, s.status = .running → fetch s = some b → step s = .next (executeByte b s)

/-- 43_execution_engine.md R164, R165 (decision D5), 10_state.md R26: PC and Status after every step of a running
core. -/
def Obligations.PcAndStatusAfterStep : Prop :=
  ∀ s t b, s.mem.size ≤ 256 → s.status = .running → fetch s = some b → step s = .next t →
    (jumps b s → t.pc.toNat = b.toNat % 8 % s.mem.size ∧ t.status = .running) ∧
    (¬jumps b s → dField b = 3 → t.pc = s.pc ∧ t.status = .haltedError) ∧
    (¬jumps b s → dField b ≠ 3 → s.pc.toNat = s.mem.size - 1 → t.pc = s.pc ∧ t.status = .haltedNormal) ∧
    (¬jumps b s → dField b ≠ 3 → s.pc.toNat ≠ s.mem.size - 1 →
      t.pc.toNat = s.pc.toNat + 1 ∧ t.status = .running)

/-- 10_state.md R21, R22, R29, 20_memory.md R42: the frame of every step. RA, RB, RO and the error record change
only through the destination path that D names, and every byte of memory reads as before. -/
def Obligations.FrameOfEveryStep : Prop :=
  ∀ s t b, s.status = .running → fetch s = some b → step s = .next t →
    (jumps b s ∨ dField b ≠ 0 → t.ra = s.ra) ∧
    (jumps b s ∨ dField b ≠ 1 → t.rb = s.rb) ∧
    (jumps b s ∨ dField b ≠ 2 → t.ro = s.ro) ∧
    (jumps b s ∨ dField b ≠ 3 → t.errPC = s.errPC ∧ t.errByte = s.errByte) ∧
    t.mem.size = s.mem.size ∧ ∀ a, t.mem.read a = s.mem.read a

/-- 10_state.md R27: Carry is written by the ALU path alone, with the ALU's carry or borrow. -/
def Obligations.CarryWrittenByAluPathOnly : Prop :=
  ∀ s t b, s.status = .running → fetch s = some b → step s = .next t →
    (¬jumps b s ∧ dField b < 2 ∧ b.toNat / 8 % 2 = 0 →
      (b.toNat / 4 % 2 = 0 → (t.carry = true ↔ s.ra.toNat + s.rb.toNat > 255)) ∧
      (b.toNat / 4 % 2 = 1 → (t.carry = true ↔ s.ra.toNat < s.rb.toNat))) ∧
    (¬(¬jumps b s ∧ dField b < 2 ∧ b.toNat / 8 % 2 = 0) → t.carry = s.carry)

/-- 43_execution_engine.md R170, R166 (decisions D22, D26): every step of a running core counts one, and emits one
retire event with its PC and byte unless it raises DecodeUnknown, which emits nothing. -/
def Obligations.EveryStepRetiresOnce : Prop :=
  ∀ s t b, s.status = .running → fetch s = some b → step s = .next t →
    stepsTaken t = stepsTaken s + 1 ∧
    (t.status ≠ .haltedError → retires t = retires s ++ [(s.pc, b)]) ∧
    (t.status = .haltedError → t.trace = s.trace)

/-- 41_register_writes.md R123 (decision D21): one output event per execution of the output path, with the new RO
value, even when RO does not change; no other step emits one. -/
def Obligations.OutputEventIffOutputPath : Prop :=
  ∀ s t b, s.status = .running → fetch s = some b → step s = .next t →
    (¬jumps b s ∧ dField b = 2 → t.ro = s.ra ∧ outputs t = outputs s ++ [s.ra]) ∧
    (¬(¬jumps b s ∧ dField b = 2) → outputs t = outputs s)

/-- 43_execution_engine.md R167 as the model reads it (log 3): a halted core stays exactly as it is through any
number of steps and any edges without reset, and emits nothing. The form of the answer, a next state equal to the
last, is the model's choice. -/
def Obligations.HaltedCoreStaysPut : Prop :=
  ∀ s : State, s.status ≠ .running →
    (∀ k, runSteps k s = .next s) ∧
    (∀ ps : List Pins, (∀ p ∈ ps, p.rst = false) → clocks ps s = .next s ∧ ∀ p ∈ ps, cycleEvents p s = [])

/-- 43_execution_engine.md R171: once a run has ended, its observation is final, and holds the final registers. That
later steps leave the state as it is, is the model's reading of R167 (log 3). -/
def Obligations.ObservationIsFinalAtEnd : Prop :=
  ∀ (k j : Nat) (s t : State), runSteps k s = .next t → t.halted = true → k ≤ j →
    ∃ u, runSteps j s = .next u ∧ observe u = observe t ∧ (observe t).ending = some t.registers

/-- 43_execution_engine.md R170 (decision D22): the trace has one record per executed instruction, in order, with its
PC and its mnemonic form; a step of a running core adds one record, which carries the new RO value exactly when the
instruction writes RO, and the step that raises DecodeUnknown adds none. -/
def Obligations.TraceRecordsFollowRetires : Prop :=
  (∀ s : State, (traceRecords s.trace).map (fun r => (r.pc, r.mnemonic)) =
    (retires s).map (fun r => (r.1, dis r.2))) ∧
  ∀ s t b, s.status = .running → fetch s = some b → step s = .next t →
    (¬jumps b s ∧ dField b = 2 →
      traceRecords t.trace = traceRecords s.trace ++ [⟨s.pc, dis b, some s.ra⟩] ∧ t.ro = s.ra) ∧
    (jumps b s ∨ dField b < 2 → traceRecords t.trace = traceRecords s.trace ++ [⟨s.pc, dis b, none⟩]) ∧
    (¬jumps b s ∧ dField b = 3 → traceRecords t.trace = traceRecords s.trace)

/-- 20_memory.md R41: no address outside 0 .. N-1 can be read; the model stops with its own fault (log 11). -/
def Obligations.FetchOutsideMemoryFaults : Prop :=
  ∀ s : State, s.status = .running → s.mem.size ≤ s.pc.toNat → step s = .fault .fetchOutsideMemory

/-- The host's word placed where the step fetches is the instruction the step runs (log 13). -/
def Obligations.FetchWordRunsNext : Prop :=
  ∀ (s : State) (w : Nat), s.mem.wf → s.status = .running → s.pc.toNat < s.mem.size →
    ∃ i, decodeTableWord 8 w = some i ∧ encodeByte i = BitVec.ofNat 8 w ∧
      step (s.withFetchWord 8 w) = exec i (s.withFetchWord 8 w)

/-! ### Invariants -/

/-- The machine right after reset has the invariant. The size of its memory is the model's choice (log 1). -/
def Obligations.ResetMeetsInvariants : Prop :=
  CoreInv State.reset ∧ TraceFaithful State.reset ∧ RoIsLastOutput State.reset ∧ CarryFromAlu State.reset

/-- 10_state.md R25, R29, 43_execution_engine.md R165, 60_exceptions.md R201: every step keeps the machine's
invariant. -/
def Obligations.StepKeepsInvariant : Prop :=
  ∀ s t, CoreInv s → step s = .next t → CoreInv t

/-- 43_execution_engine.md R170, 20_memory.md R42: every step keeps the trace true to the memory. -/
def Obligations.StepKeepsTraceFaithful : Prop :=
  ∀ s t, TraceFaithful s → step s = .next t → TraceFaithful t

/-- 10_state.md R22, 41_register_writes.md R123: every step keeps RO equal to the last output. -/
def Obligations.StepKeepsRoLastOutput : Prop :=
  ∀ s t, RoIsLastOutput s → step s = .next t → RoIsLastOutput t

/-- 10_state.md R27, 70_reset_and_hazards.md R235: every step keeps that Carry is set only after an instruction that
can take the ALU path. -/
def Obligations.StepKeepsCarryFromAlu : Prop :=
  ∀ s t, CarryFromAlu s → step s = .next t → CarryFromAlu t

/-- A machine in its invariant always has a next state. While it runs, this is 43_execution_engine.md R162,
60_exceptions.md R202 and 42_control_transfer.md R146: no fetch and no instruction fails. In a halt the rules give no
enabled transition (R167), and that the step answers a next state there is the model's reading (log 3, DEDUCED). -/
def Obligations.InvariantStateSteps : Prop :=
  ∀ s, CoreInv s → ∃ t, step s = .next t

/-- 20_memory.md R42, R51, 70_reset_and_hazards.md R232: no sequence of edges, steps and resets alike, changes a byte
of memory. -/
def Obligations.MemoryIsNeverWritten : Prop :=
  ∀ (ps : List Pins) (s t : State), clocks ps s = .next t →
    t.mem.size = s.mem.size ∧ ∀ a, t.mem.read a = s.mem.read a

/-- 10_state.md R22, R30: nothing that runs reads RO, ErrPC, ErrByte or the trace: two states that agree on the rest
step alike and emit the same events. -/
def Obligations.OutputsAreNeverRead : Prop :=
  ∀ s s' t, agreeOnReadable s s' → step s = .next t →
    ∃ t' events, step s' = .next t' ∧ agreeOnReadable t t' ∧
      t.trace = s.trace ++ events ∧ t'.trace = s'.trace ++ events

/-! ### Boot -/

/-- 20_memory.md R52, R57 (decision D16): what a launch does, for every memory size and image. 00_scope.md R7 gives
only the constraint 1 ≤ N ≤ 256: that a launch with another N is refused is the model's choice (log 25). -/
def Obligations.LaunchLoadsImage : Prop :=
  ∀ (n : Nat) (image : List Byte),
    (1 ≤ n ∧ n ≤ 256 ∧ image.length ≤ n →
      ∃ s, launch n image = .next s ∧ s.registers = State.reset.registers ∧ s.trace = [] ∧ s.mem.size = n ∧
        ∀ a, s.mem.read a = if a < n then some (image.getD a 0) else none) ∧
    (1 ≤ n ∧ n ≤ 256 ∧ n < image.length → launch n image = .refused .oversizeImage) ∧
    (n = 0 ∨ 256 < n → launch n image = .refused .memSizeOutOfRange)

/-- A launched core never stops with a fault or a refusal, whatever its memory size, its image and the number of
steps, and keeps every invariant. That the steps after a halt answer a next state is the model's reading of
43_execution_engine.md R167 (log 3, DEDUCED). -/
def Obligations.LaunchedCoreRunsOn : Prop :=
  ∀ (n : Nat) (image : List Byte) (k : Nat) (s : State), launch n image = .next s →
    ∃ t, runSteps k s = .next t ∧ CoreInv t ∧ TraceFaithful t ∧ RoIsLastOutput t ∧ CarryFromAlu t

/-- 43_execution_engine.md R165, 90_conflicts.md C10: with no jump in memory the core halts, after at most the
N - PC steps that are left. -/
def Obligations.StraightLineMemoryHalts : Prop :=
  ∀ s, CoreInv s → (∀ a b, s.mem.read a = some b → b.toNat < 0x40) →
    ∃ k t, k ≤ s.mem.size - s.pc.toNat ∧ runSteps k s = .next t ∧ t.status ≠ .running

/-! ### Image text and assembly -/

/-- 20_memory.md R54, R55 (decision D17): which lines of a text image are bytes, and which byte each is. -/
def Obligations.TextImageLines : Prop :=
  (∀ l, (∃ b, textLine l = some b) ↔ l.length = 8 ∧ ∀ c ∈ l, c = '0' ∨ c = '1') ∧
  (∀ b : Byte, textLine ((List.range 8).map fun k => if b.getLsbD (7 - k) then '1' else '0') = some b) ∧
  (∀ (lines : List (List Char)) (n : Nat), (loadLines n lines).image = lines.filterMap textLine ∧
    ∀ k, n + k ∈ (loadLines n lines).loadErrors ↔ ∃ l, lines[k]? = some l ∧ textLine l = none)

/-- 30_encoding.md R77 (decision D18): the accepted forms, the byte of each, and its descriptor. -/
def Obligations.AssemblerForms : Prop :=
  (assembleLine "RA=RA+RB".toList = .accepted (.raAdd 0) ∧ encodeByte (.raAdd 0) = 0x00 ∧
    describe 0x00 = ⟨.aluAdd, .ra, false, 0, false, false⟩) ∧
  (assembleLine "RA=RA-RB".toList = .accepted (.raSub 0) ∧ encodeByte (.raSub 0) = 0x04 ∧
    describe 0x04 = ⟨.aluSub, .ra, false, 4, false, false⟩) ∧
  (assembleLine "RB=RA+RB".toList = .accepted (.rbAdd 0) ∧ encodeByte (.rbAdd 0) = 0x10 ∧
    describe 0x10 = ⟨.aluAdd, .rb, false, 0, false, false⟩) ∧
  (assembleLine "RB=RA-RB".toList = .accepted (.rbSub 0) ∧ encodeByte (.rbSub 0) = 0x14 ∧
    describe 0x14 = ⟨.aluSub, .rb, false, 4, false, false⟩) ∧
  (assembleLine "RO=RA".toList = .accepted (.roRa 0) ∧ encodeByte (.roRa 0) = 0x20 ∧
    describe 0x20 = ⟨.output, .ro, false, 0, false, false⟩) ∧
  ∀ n : Imm,
    (assembleLine ("RA=".toList ++ dec n) = .accepted (.raImm n) ∧
      encodeByte (.raImm n) = 0x08 + n.setWidth 8 ∧
      describe (0x08 + n.setWidth 8) = ⟨.loadImm, .ra, true, n, false, false⟩) ∧
    (assembleLine ("RB=".toList ++ dec n) = .accepted (.rbImm n) ∧
      encodeByte (.rbImm n) = 0x18 + n.setWidth 8 ∧
      describe (0x18 + n.setWidth 8) = ⟨.loadImm, .rb, true, n, false, false⟩) ∧
    (assembleLine ("J=".toList ++ dec n) = .accepted (.j 0 n) ∧ encodeByte (.j 0 n) = 0x80 + n.setWidth 8 ∧
      describe (0x80 + n.setWidth 8) =
        ⟨if n.toNat ≤ 3 then .aluAdd else .aluSub, .ra, false, n, true, false⟩) ∧
    (assembleLine ("JC=".toList ++ dec n) = .accepted (.jc 0 n) ∧ encodeByte (.jc 0 n) = 0x40 + n.setWidth 8 ∧
      describe (0x40 + n.setWidth 8) =
        ⟨if n.toNat ≤ 3 then .aluAdd else .aluSub, .ra, false, n, false, true⟩)

/-- 30_encoding.md R76, R79, R81: what the assembler accepts is canonical, and its byte decodes to it; without
its blanks the line is the one the disassembly of the byte spells, but for leading zeros of a literal, which is all
that stands after the '='. -/
def Obligations.AcceptedLinesAreCanonical : Prop :=
  ∀ l i, assembleLine l = .accepted i →
    i.canonical = true ∧ decode (encode i) = .ok (i, []) ∧
    (deleteBlanks l = dis (encodeByte i) ∨ ∃ zeros mnemonic n,
      deleteBlanks l = mnemonic ++ '=' :: (List.replicate zeros '0' ++ dec n) ∧
      dis (encodeByte i) = mnemonic ++ '=' :: dec n)

/-- 30_encoding.md R82 (decision D20): assembling the disassembly of a canonical byte gives the byte back. -/
def Obligations.AssembleOfDisassemble : Prop :=
  ∀ i : Instr, i.canonical = true → assembleLine (dis (encodeByte i)) = .accepted i

/-- 30_encoding.md R78 (decision D19): a literal is a nonempty row of digits with value 0 to 7, leading zeros
allowed. -/
def Obligations.LiteralsAreRangeChecked : Prop :=
  (∀ (k : Nat) (n : Imm), literal (List.replicate k '0' ++ dec n) = some n) ∧
  (∀ l n, literal l = some n → ∃ k, l = List.replicate k '0' ++ dec n)

/-- 30_encoding.md R80: the assembler collects errors and goes on: the image is the bytes of the accepted lines in
order, and every rejected line is reported with its number and text. -/
def Obligations.AssemblerCollectsErrors : Prop :=
  ∀ (lines : List (List Char)) (n : Nat),
    (assembleLines n lines).image = lines.filterMap (fun l =>
      match assembleLine l with
      | .accepted i => some (encodeByte i)
      | .ignored => none
      | .syntaxError => none) ∧
    ∀ k l, (n + k, l) ∈ (assembleLines n lines).diagnostics ↔
      lines[k]? = some l ∧ assembleLine l = .syntaxError
end

