-- ==== Sys2Proof/Laws/State.lean ====
section
/-! SUPPORT. The small lemmas of the state: one per field per update. -/

namespace Sys2Proof.Machine

/-! ### setRA -/

@[simp] theorem setRA_ra (s : State) (v : Word) : (s.setRA v).ra = v := rfl
@[simp] theorem setRA_rb (s : State) (v : Word) : (s.setRA v).rb = s.rb := rfl
@[simp] theorem setRA_ro (s : State) (v : Word) : (s.setRA v).ro = s.ro := rfl
@[simp] theorem setRA_pc (s : State) (v : Word) : (s.setRA v).pc = s.pc := rfl
@[simp] theorem setRA_carry (s : State) (v : Word) : (s.setRA v).carry = s.carry := rfl
@[simp] theorem setRA_status (s : State) (v : Word) : (s.setRA v).status = s.status := rfl
@[simp] theorem setRA_errPC (s : State) (v : Word) : (s.setRA v).errPC = s.errPC := rfl
@[simp] theorem setRA_errByte (s : State) (v : Word) : (s.setRA v).errByte = s.errByte := rfl
@[simp] theorem setRA_mem (s : State) (v : Word) : (s.setRA v).mem = s.mem := rfl
@[simp] theorem setRA_trace (s : State) (v : Word) : (s.setRA v).trace = s.trace := rfl

/-! ### setRB -/

@[simp] theorem setRB_ra (s : State) (v : Word) : (s.setRB v).ra = s.ra := rfl
@[simp] theorem setRB_rb (s : State) (v : Word) : (s.setRB v).rb = v := rfl
@[simp] theorem setRB_ro (s : State) (v : Word) : (s.setRB v).ro = s.ro := rfl
@[simp] theorem setRB_pc (s : State) (v : Word) : (s.setRB v).pc = s.pc := rfl
@[simp] theorem setRB_carry (s : State) (v : Word) : (s.setRB v).carry = s.carry := rfl
@[simp] theorem setRB_status (s : State) (v : Word) : (s.setRB v).status = s.status := rfl
@[simp] theorem setRB_errPC (s : State) (v : Word) : (s.setRB v).errPC = s.errPC := rfl
@[simp] theorem setRB_errByte (s : State) (v : Word) : (s.setRB v).errByte = s.errByte := rfl
@[simp] theorem setRB_mem (s : State) (v : Word) : (s.setRB v).mem = s.mem := rfl
@[simp] theorem setRB_trace (s : State) (v : Word) : (s.setRB v).trace = s.trace := rfl

/-! ### setRO -/

@[simp] theorem setRO_ra (s : State) (v : Word) : (s.setRO v).ra = s.ra := rfl
@[simp] theorem setRO_rb (s : State) (v : Word) : (s.setRO v).rb = s.rb := rfl
@[simp] theorem setRO_ro (s : State) (v : Word) : (s.setRO v).ro = v := rfl
@[simp] theorem setRO_pc (s : State) (v : Word) : (s.setRO v).pc = s.pc := rfl
@[simp] theorem setRO_carry (s : State) (v : Word) : (s.setRO v).carry = s.carry := rfl
@[simp] theorem setRO_status (s : State) (v : Word) : (s.setRO v).status = s.status := rfl
@[simp] theorem setRO_errPC (s : State) (v : Word) : (s.setRO v).errPC = s.errPC := rfl
@[simp] theorem setRO_errByte (s : State) (v : Word) : (s.setRO v).errByte = s.errByte := rfl
@[simp] theorem setRO_mem (s : State) (v : Word) : (s.setRO v).mem = s.mem := rfl
@[simp] theorem setRO_trace (s : State) (v : Word) : (s.setRO v).trace = s.trace := rfl

/-! ### setPC -/

@[simp] theorem setPC_ra (s : State) (v : Addr) : (s.setPC v).ra = s.ra := rfl
@[simp] theorem setPC_rb (s : State) (v : Addr) : (s.setPC v).rb = s.rb := rfl
@[simp] theorem setPC_ro (s : State) (v : Addr) : (s.setPC v).ro = s.ro := rfl
@[simp] theorem setPC_pc (s : State) (v : Addr) : (s.setPC v).pc = v := rfl
@[simp] theorem setPC_carry (s : State) (v : Addr) : (s.setPC v).carry = s.carry := rfl
@[simp] theorem setPC_status (s : State) (v : Addr) : (s.setPC v).status = s.status := rfl
@[simp] theorem setPC_errPC (s : State) (v : Addr) : (s.setPC v).errPC = s.errPC := rfl
@[simp] theorem setPC_errByte (s : State) (v : Addr) : (s.setPC v).errByte = s.errByte := rfl
@[simp] theorem setPC_mem (s : State) (v : Addr) : (s.setPC v).mem = s.mem := rfl
@[simp] theorem setPC_trace (s : State) (v : Addr) : (s.setPC v).trace = s.trace := rfl

/-! ### setCarry -/

@[simp] theorem setCarry_ra (s : State) (c : Bool) : (s.setCarry c).ra = s.ra := rfl
@[simp] theorem setCarry_rb (s : State) (c : Bool) : (s.setCarry c).rb = s.rb := rfl
@[simp] theorem setCarry_ro (s : State) (c : Bool) : (s.setCarry c).ro = s.ro := rfl
@[simp] theorem setCarry_pc (s : State) (c : Bool) : (s.setCarry c).pc = s.pc := rfl
@[simp] theorem setCarry_carry (s : State) (c : Bool) : (s.setCarry c).carry = c := rfl
@[simp] theorem setCarry_status (s : State) (c : Bool) : (s.setCarry c).status = s.status := rfl
@[simp] theorem setCarry_errPC (s : State) (c : Bool) : (s.setCarry c).errPC = s.errPC := rfl
@[simp] theorem setCarry_errByte (s : State) (c : Bool) : (s.setCarry c).errByte = s.errByte := rfl
@[simp] theorem setCarry_mem (s : State) (c : Bool) : (s.setCarry c).mem = s.mem := rfl
@[simp] theorem setCarry_trace (s : State) (c : Bool) : (s.setCarry c).trace = s.trace := rfl

/-! ### setStatus -/

@[simp] theorem setStatus_ra (s : State) (x : Status) : (s.setStatus x).ra = s.ra := rfl
@[simp] theorem setStatus_rb (s : State) (x : Status) : (s.setStatus x).rb = s.rb := rfl
@[simp] theorem setStatus_ro (s : State) (x : Status) : (s.setStatus x).ro = s.ro := rfl
@[simp] theorem setStatus_pc (s : State) (x : Status) : (s.setStatus x).pc = s.pc := rfl
@[simp] theorem setStatus_carry (s : State) (x : Status) : (s.setStatus x).carry = s.carry := rfl
@[simp] theorem setStatus_status (s : State) (x : Status) : (s.setStatus x).status = x := rfl
@[simp] theorem setStatus_errPC (s : State) (x : Status) : (s.setStatus x).errPC = s.errPC := rfl
@[simp] theorem setStatus_errByte (s : State) (x : Status) : (s.setStatus x).errByte = s.errByte := rfl
@[simp] theorem setStatus_mem (s : State) (x : Status) : (s.setStatus x).mem = s.mem := rfl
@[simp] theorem setStatus_trace (s : State) (x : Status) : (s.setStatus x).trace = s.trace := rfl

/-! ### setErr -/

@[simp] theorem setErr_ra (s : State) (pc : Addr) (b : Byte) : (s.setErr pc b).ra = s.ra := rfl
@[simp] theorem setErr_rb (s : State) (pc : Addr) (b : Byte) : (s.setErr pc b).rb = s.rb := rfl
@[simp] theorem setErr_ro (s : State) (pc : Addr) (b : Byte) : (s.setErr pc b).ro = s.ro := rfl
@[simp] theorem setErr_pc (s : State) (pc : Addr) (b : Byte) : (s.setErr pc b).pc = s.pc := rfl
@[simp] theorem setErr_carry (s : State) (pc : Addr) (b : Byte) : (s.setErr pc b).carry = s.carry := rfl
@[simp] theorem setErr_status (s : State) (pc : Addr) (b : Byte) : (s.setErr pc b).status = s.status := rfl
@[simp] theorem setErr_errPC (s : State) (pc : Addr) (b : Byte) : (s.setErr pc b).errPC = pc := rfl
@[simp] theorem setErr_errByte (s : State) (pc : Addr) (b : Byte) : (s.setErr pc b).errByte = b := rfl
@[simp] theorem setErr_mem (s : State) (pc : Addr) (b : Byte) : (s.setErr pc b).mem = s.mem := rfl
@[simp] theorem setErr_trace (s : State) (pc : Addr) (b : Byte) : (s.setErr pc b).trace = s.trace := rfl

/-! ### emit -/

@[simp] theorem emit_ra (s : State) (e : Event) : (s.emit e).ra = s.ra := rfl
@[simp] theorem emit_rb (s : State) (e : Event) : (s.emit e).rb = s.rb := rfl
@[simp] theorem emit_ro (s : State) (e : Event) : (s.emit e).ro = s.ro := rfl
@[simp] theorem emit_pc (s : State) (e : Event) : (s.emit e).pc = s.pc := rfl
@[simp] theorem emit_carry (s : State) (e : Event) : (s.emit e).carry = s.carry := rfl
@[simp] theorem emit_status (s : State) (e : Event) : (s.emit e).status = s.status := rfl
@[simp] theorem emit_errPC (s : State) (e : Event) : (s.emit e).errPC = s.errPC := rfl
@[simp] theorem emit_errByte (s : State) (e : Event) : (s.emit e).errByte = s.errByte := rfl
@[simp] theorem emit_mem (s : State) (e : Event) : (s.emit e).mem = s.mem := rfl
@[simp] theorem emit_trace (s : State) (e : Event) : (s.emit e).trace = s.trace ++ [e] := rfl

/-! ### applyReset -/

@[simp] theorem applyReset_ra (s : State) : s.applyReset.ra = 0 := rfl
@[simp] theorem applyReset_rb (s : State) : s.applyReset.rb = 0 := rfl
@[simp] theorem applyReset_ro (s : State) : s.applyReset.ro = 0 := rfl
@[simp] theorem applyReset_pc (s : State) : s.applyReset.pc = 0 := rfl
@[simp] theorem applyReset_carry (s : State) : s.applyReset.carry = false := rfl
@[simp] theorem applyReset_status (s : State) : s.applyReset.status = .running := rfl
@[simp] theorem applyReset_errPC (s : State) : s.applyReset.errPC = 0 := rfl
@[simp] theorem applyReset_errByte (s : State) : s.applyReset.errByte = 0 := rfl
@[simp] theorem applyReset_mem (s : State) : s.applyReset.mem = s.mem := rfl
@[simp] theorem applyReset_trace (s : State) : s.applyReset.trace = [] := rfl

end Sys2Proof.Machine
end

