-- ==== Sys2Proof/Laws/Memory.lean ====
section
/-! SUPPORT. The laws of the memory: a read after a load, and that every operation on a memory keeps its canonical
form. -/

namespace Sys2Proof.Machine

/-! ### Reading -/

@[simp] theorem cellsRead_nil (a : Nat) : cellsRead [] a = 0 := rfl

theorem cellsRead_cons (k : Nat) (v : Byte) (rest : List Host.Cell) (a : Nat) :
    cellsRead ((k, v) :: rest) a = if a = k then v else cellsRead rest a := rfl

/-- An address below every listed one reads 0x00. -/
theorem cellsRead_of_lt {cells : List Host.Cell} {a : Nat} (h : ∀ c ∈ cells, a < c.1) :
    cellsRead cells a = 0 := by
  induction cells with
  | nil => rfl
  | cons c rest ih =>
    obtain ⟨k, v⟩ := c
    have hk : a < k := h (k, v) (by simp)
    rw [cellsRead_cons, if_neg (by omega), ih fun c hc => h c (by simp [hc])]

theorem read_eq_some {m : Memory} {a : Nat} (h : a < m.size) : m.read a = some (cellsRead m.cells a) :=
  if_pos h

theorem read_eq_none {m : Memory} {a : Nat} (h : ¬a < m.size) : m.read a = none := if_neg h

/-- What a read can answer (20_memory.md R41). -/
theorem read_cases {m : Memory} {a : Nat} {b : Byte} (h : m.read a = some b) :
    a < m.size ∧ b = cellsRead m.cells a := by
  unfold Memory.read at h
  split at h
  · next hlt => exact ⟨hlt, by simpa using h.symm⟩
  · cases h

/-! ### Loading one byte -/

/-- Every cell of a written list is an old one or the written one. -/
theorem mem_cellsWrite {cells : List Host.Cell} {a : Nat} {v : Byte} {c : Host.Cell}
    (h : c ∈ cellsWrite cells a v) : c ∈ cells ∨ (c = (a, v) ∧ v ≠ 0) := by
  induction cells with
  | nil =>
    unfold cellsWrite at h
    split at h
    · cases h
    · next hv => exact .inr ⟨by simpa using h, hv⟩
  | cons d rest ih =>
    obtain ⟨k, u⟩ := d
    unfold cellsWrite at h
    split_ifs at h with h1 h2 h3 h4
    · exact .inl h
    · rcases List.mem_cons.1 h with h | h
      · exact .inr ⟨h, h2⟩
      · exact .inl h
    · exact .inl (by simp [h])
    · rcases List.mem_cons.1 h with h | h
      · exact .inr ⟨h, h4⟩
      · exact .inl (by simp [h])
    · rcases List.mem_cons.1 h with h | h
      · exact .inl (by simp [h])
      · rcases ih h with h | h
        · exact .inl (by simp [h])
        · exact .inr h

theorem cellsWrite_pairwise {cells : List Host.Cell} (a : Nat) (v : Byte)
    (h : cells.Pairwise (fun x y => x.1 < y.1)) :
    (cellsWrite cells a v).Pairwise (fun x y => x.1 < y.1) := by
  induction cells with
  | nil => unfold cellsWrite; split <;> simp
  | cons d rest ih =>
    obtain ⟨k, u⟩ := d
    obtain ⟨hk, hrest⟩ := List.pairwise_cons.1 h
    unfold cellsWrite
    split_ifs with h1 h2 h3 h4
    · exact h
    · refine List.pairwise_cons.2 ⟨fun c hc => ?_, h⟩
      rcases List.mem_cons.1 hc with rfl | hc
      · exact h1
      · exact lt_trans h1 (hk c hc)
    · exact hrest
    · exact List.pairwise_cons.2 ⟨fun c hc => by simpa [h3] using hk c hc, hrest⟩
    · refine List.pairwise_cons.2 ⟨fun c hc => ?_, ih hrest⟩
      rcases mem_cellsWrite hc with hc | ⟨rfl, -⟩
      · exact hk c hc
      · exact lt_of_le_of_ne (not_lt.1 h1) (Ne.symm h3)

/-- What a cell list reads after a write: the written byte at its address, the old byte at any other. -/
theorem cellsRead_cellsWrite {cells : List Host.Cell} (a : Nat) (v : Byte) (x : Nat)
    (h : cells.Pairwise (fun x y => x.1 < y.1)) :
    cellsRead (cellsWrite cells a v) x = if x = a then v else cellsRead cells x := by
  induction cells with
  | nil => unfold cellsWrite; split <;> simp_all [cellsRead_cons]
  | cons d rest ih =>
    obtain ⟨k, u⟩ := d
    obtain ⟨hk, hrest⟩ := List.pairwise_cons.1 h
    have below : a < k → cellsRead ((k, u) :: rest) a = 0 := fun hlt =>
      cellsRead_of_lt fun c hc => by
        rcases List.mem_cons.1 hc with rfl | hc
        · exact hlt
        · exact lt_trans hlt (hk c hc)
    unfold cellsWrite
    rcases lt_trichotomy a k with hlt | heq | hgt
    · rw [if_pos hlt]
      by_cases hx : x = a
      · rw [if_pos hx, hx]
        split
        · next hv => rw [below hlt, hv]
        · rw [cellsRead_cons, if_pos rfl]
      · rw [if_neg hx]
        split
        · rfl
        · rw [cellsRead_cons, if_neg hx]
    · subst heq
      rw [if_neg (lt_irrefl a), if_pos rfl, cellsRead_cons a u]
      by_cases hx : x = a
      · rw [if_pos hx, hx]
        split
        · next hv => rw [hv]; exact cellsRead_of_lt hk
        · rw [cellsRead_cons, if_pos rfl]
      · rw [if_neg hx, if_neg hx]
        split
        · rfl
        · rw [cellsRead_cons, if_neg hx]
    · rw [if_neg (by omega), if_neg (by omega), cellsRead_cons, cellsRead_cons, ih hrest]
      by_cases hx : x = k
      · rw [if_pos hx, if_pos hx, if_neg (by omega)]
      · rw [if_neg hx, if_neg hx]

@[simp] theorem load_size (m : Memory) (a : Nat) (v : Byte) : (m.load a v).size = m.size := by
  unfold Memory.load; split <;> rfl

/-- The host's load keeps the canonical form. -/
theorem load_wf {m : Memory} (h : m.wf) (a : Nat) (v : Byte) : (m.load a v).wf := by
  unfold Memory.load
  split
  · next ha =>
    refine ⟨h.1, h.2.1, cellsWrite_pairwise a v h.2.2.1, fun c hc => ?_⟩
    rcases mem_cellsWrite hc with hc | ⟨rfl, hv⟩
    · exact h.2.2.2 c hc
    · exact ⟨ha, hv⟩
  · exact h

/-- A read after the host's load of an address of the memory. -/
theorem read_load {m : Memory} (h : m.wf) {a : Nat} (ha : a < m.size) (v : Byte) (x : Nat) :
    (m.load a v).read x = if x = a then some v else m.read x := by
  unfold Memory.load
  rw [if_pos ha]
  unfold Memory.read
  by_cases hx : x < m.size
  · rw [if_pos hx, if_pos hx, cellsRead_cellsWrite a v x h.2.2.1]
    split <;> rfl
  · rw [if_neg hx, if_neg hx, if_neg (by omega)]

/-! ### The image and the reset -/

/-- The cells of an image stored from `a` on lie at a .. a + L - 1, and none holds 0x00. -/
theorem mem_imageCells {image : List Byte} {a : Nat} {c : Host.Cell} (h : c ∈ imageCells a image) :
    a ≤ c.1 ∧ c.1 < a + image.length ∧ c.2 ≠ 0 := by
  induction image generalizing a with
  | nil => cases h
  | cons b rest ih =>
    unfold imageCells at h
    split at h
    · obtain ⟨h1, h2, h3⟩ := ih h
      exact ⟨by omega, by simp only [List.length_cons]; omega, h3⟩
    · next hb =>
      rcases List.mem_cons.1 h with rfl | h
      · exact ⟨le_refl _, by simp, hb⟩
      · obtain ⟨h1, h2, h3⟩ := ih h
        exact ⟨by omega, by simp only [List.length_cons]; omega, h3⟩

theorem imageCells_pairwise (a : Nat) (image : List Byte) :
    (imageCells a image).Pairwise (fun x y => x.1 < y.1) := by
  induction image generalizing a with
  | nil => exact .nil
  | cons b rest ih =>
    unfold imageCells
    split
    · exact ih _
    · exact List.pairwise_cons.2 ⟨fun c hc => (mem_imageCells hc).1, ih _⟩

/-- What a launch can answer: a next state for a size of 1 .. 256 and an image that fits, the registers at reset
and the image's cells in the memory. -/
theorem launch_cases {n : Nat} {image : List Byte} {s : State} (h : launch n image = .next s) :
    1 ≤ n ∧ n ≤ Config.maxMemSize ∧ image.length ≤ n ∧
      s = { State.reset with mem := { size := n, cells := imageCells 0 image } } := by
  unfold launch at h
  split_ifs at h with h1 h2
  simp only [Host.Outcome.next.injEq] at h
  exact ⟨by omega, by omega, by omega, h.symm⟩

/-- A launch leaves the memory in canonical form. -/
theorem launch_wf {n : Nat} {image : List Byte} {s : State} (h : launch n image = .next s) : s.mem.wf := by
  obtain ⟨h1, h2, h3, rfl⟩ := launch_cases h
  refine ⟨h1, h2, imageCells_pairwise 0 image, fun c hc => ?_⟩
  obtain ⟨-, h4, h5⟩ := mem_imageCells hc
  exact ⟨show c.1 < n by omega, h5⟩

/-- The reset input keeps the memory (70_reset_and_hazards.md R232), and so its canonical form. -/
theorem applyReset_wf {s : State} (h : s.mem.wf) : s.applyReset.mem.wf := h

/-- The memory of `State.reset` has the canonical form. -/
theorem reset_wf : State.reset.mem.wf := by decide

end Sys2Proof.Machine
end

