-- ==== Sys2Proof/Laws/Ops.lean ====
section
/-! SUPPORT. One lemma per shared operation that says all it does, and the inversion of a step. -/

namespace Sys2Proof.Machine

/-! ### The ALU (40_alu.md R100) -/

/-- An addition, as bit vectors: the wrapped sum and the carry of the exact one. -/
theorem alu_false {w : Nat} (a b : BitVec w) : alu a b false = (a + b, carryOut a b) := by
  simp [alu, BitVec.ofNat_add]

/-- A subtraction, as bit vectors: the wrapped difference and the borrow. -/
theorem alu_true {w : Nat} (a b : BitVec w) : alu a b true = (a - b, borrow a b) := by
  have h : BitVec.ofInt w ((a.toNat : Int) - (b.toNat : Int)) = a - b := by
    rw [Int.sub_eq_add_neg, BitVec.ofInt_add, BitVec.ofInt_neg, BitVec.ofInt_natCast, BitVec.ofInt_natCast,
      BitVec.ofNat_toNat, BitVec.ofNat_toNat, BitVec.setWidth_eq, BitVec.setWidth_eq, BitVec.sub_eq_add_neg]
  simp [alu, h]

/-! ### advance() (43_execution_engine.md R164) -/

/-- All that `advance` does: PC and Status. -/
theorem advance_eq (s : State) :
    advance s = { s with
      pc := if s.pc.toNat + 1 = s.mem.size then s.pc else s.pc + 1
      status := if s.pc.toNat + 1 = s.mem.size then .haltedNormal else s.status } := by
  unfold advance; split <;> rfl

/-! ### The register write of a destination -/

/-- All that `writeDest` does: at most one of RA, RB and RO. -/
theorem writeDest_eq (d : Dest) (v : Word) (s : State) :
    writeDest d v s = { s with
      ra := if d = .ra then v else s.ra
      rb := if d = .rb then v else s.rb
      ro := if d = .ro then v else s.ro } := by
  cases d <;> rfl

/-! ### The paths of a step -/

/-- All that a taken jump does. -/
theorem jumpPath_eq (b : Byte) (n : Imm) (s : State) :
    jumpPath b n s = { s with pc := jumpTarget n s, trace := s.trace ++ [.retire s.pc b] } := rfl

/-- All that the ALU path does. -/
theorem aluPath_eq (b : Byte) (d : Dest) (subtract : Bool) (s : State) :
    aluPath b d subtract s = { s with
      ra := if d = .ra then (alu s.ra s.rb subtract).1 else s.ra
      rb := if d = .rb then (alu s.ra s.rb subtract).1 else s.rb
      ro := if d = .ro then (alu s.ra s.rb subtract).1 else s.ro
      carry := (alu s.ra s.rb subtract).2
      pc := if s.pc.toNat + 1 = s.mem.size then s.pc else s.pc + 1
      status := if s.pc.toNat + 1 = s.mem.size then .haltedNormal else s.status
      trace := s.trace ++ [.retire s.pc b] } := by
  unfold aluPath; rw [advance_eq, writeDest_eq]; rfl

/-- All that the immediate path does. -/
theorem immPath_eq (b : Byte) (d : Dest) (n : Imm) (s : State) :
    immPath b d n s = { s with
      ra := if d = .ra then immOperand n else s.ra
      rb := if d = .rb then immOperand n else s.rb
      ro := if d = .ro then immOperand n else s.ro
      pc := if s.pc.toNat + 1 = s.mem.size then s.pc else s.pc + 1
      status := if s.pc.toNat + 1 = s.mem.size then .haltedNormal else s.status
      trace := s.trace ++ [.retire s.pc b] } := by
  unfold immPath; rw [advance_eq, writeDest_eq]; rfl

/-- All that the output path does. -/
theorem outputPath_eq (b : Byte) (s : State) :
    outputPath b s = { s with
      ro := s.ra
      pc := if s.pc.toNat + 1 = s.mem.size then s.pc else s.pc + 1
      status := if s.pc.toNat + 1 = s.mem.size then .haltedNormal else s.status
      trace := s.trace ++ [.retire s.pc b, .output s.ra] } := by
  unfold outputPath; rw [advance_eq]; simp [State.emit, writeDest, State.setRO, retire]

/-- All that taking DecodeUnknown does (60_exceptions.md R201). -/
theorem raiseDecodeUnknown_eq (b : Byte) (s : State) :
    raiseDecodeUnknown b s = { s with errPC := s.pc, errByte := b, status := .haltedError } := rfl

/-- What the destination path of a byte can be. -/
theorem destinationPath_cases (b : Byte) (s : State) :
    (classOf b = .aluAdd ∧ destinationPath b s = aluPath b (destOf b) false s) ∨
    (classOf b = .aluSub ∧ destinationPath b s = aluPath b (destOf b) true s) ∨
    (classOf b = .loadImm ∧ destinationPath b s = immPath b (destOf b) (b.extractLsb' 0 3) s) ∨
    (classOf b = .output ∧ destinationPath b s = outputPath b s) ∨
    (classOf b = .unknown ∧ destinationPath b s = raiseDecodeUnknown b s) := by
  unfold destinationPath
  cases h : classOf b <;> simp [describe, h]

/-! ### Events -/

@[simp] theorem outputValue_retire (pc : Addr) (b : Byte) : (Event.retire pc b).outputValue = none := rfl
@[simp] theorem outputValue_output (v : Word) : (Event.output v).outputValue = some v := rfl
@[simp] theorem retired_retire (pc : Addr) (b : Byte) : (Event.retire pc b).retired = some (pc, b) := rfl
@[simp] theorem retired_output (v : Word) : (Event.output v).retired = none := rfl

/-- A record belongs to one instruction alone: what is retired later adds its own records (43_execution_engine.md
R170). -/
theorem traceRecords_append_retire (es : List Event) (pc : Addr) (b : Byte) (new : List Event) :
    traceRecords (es ++ .retire pc b :: new) = traceRecords es ++ traceRecords (.retire pc b :: new) := by
  induction es using traceRecords.induct with
  | case1 => rfl
  | case2 _ _ _ _ ih => simp [traceRecords, ih]
  | case3 _ _ rest h ih =>
    cases rest with
    | nil => simp [traceRecords]
    | cons e rest =>
      cases e with
      | retire => simpa [traceRecords] using ih
      | output v => exact absurd rfl (h v rest)
  | case4 _ _ ih => simp [traceRecords, ih]

/-! ### The step -/

/-- Everything a step can answer as a next state. -/
theorem step_cases {s t : State} (h : step s = .next t) :
    (s.status ≠ .running ∧ t = s) ∨
    (s.status = .running ∧ ∃ b, fetch s = some b ∧ exec (decodeByte b) s = .next t) := by
  unfold step at h
  split at h
  · next hr =>
    split at h
    · next b hb => exact .inr ⟨hr, b, hb, h⟩
    · cases h
  · next hr => exact .inl ⟨by simp [hr], by simpa using h.symm⟩
  · next hr => exact .inl ⟨by simp [hr], by simpa using h.symm⟩

/-- A step of a running machine whose fetch succeeds is the meaning of the fetched byte. -/
theorem step_of_fetch {s : State} {b : Byte} (hr : s.status = .running) (hb : fetch s = some b) :
    step s = exec (decodeByte b) s := by
  simp [step, hr, hb]

/-- A step of a halted machine changes nothing. -/
theorem step_of_halted {s : State} (h : s.status ≠ .running) : step s = .next s := by
  unfold step
  cases hs : s.status <;> simp_all

end Sys2Proof.Machine
end

