-- ==== Sys2Proof/Laws/PerInstr.lean ====
section
/-! SUPPORT. Statements about every instruction as syntax, one lemma per constructor. -/

namespace Sys2Proof.Laws

/-- The mask and the match of an instruction's row in spec/opcode_table.json. -/
def rowOf : Instr → Byte × Byte
  | .j _ _ => (0x80, 0x80)
  | .jc _ _ => (0xC0, 0x40)
  | .raAdd _ => (0xFC, 0x00)
  | .raSub _ => (0xFC, 0x04)
  | .raImm _ => (0xF8, 0x08)
  | .rbAdd _ => (0xFC, 0x10)
  | .rbSub _ => (0xFC, 0x14)
  | .rbImm _ => (0xF8, 0x18)
  | .roRa _ => (0xF0, 0x20)
  | .unknown _ => (0xF0, 0x30)

namespace EncodeInRow

/-- The byte of an instruction has the fixed bits of its row (30_encoding.md R69). -/
def Statement (i : Instr) : Prop := encodeByte i &&& (rowOf i).1 = (rowOf i).2

theorem j (x : BitVec 4) (n : Imm) : Statement (.j x n) := by
  unfold Statement encodeByte rowOf; revert x n; decide
theorem jc (f : BitVec 3) (n : Imm) : Statement (.jc f n) := by
  unfold Statement encodeByte rowOf; revert f n; decide
theorem raAdd (x : BitVec 2) : Statement (.raAdd x) := by
  unfold Statement encodeByte rowOf; revert x; decide
theorem raSub (x : BitVec 2) : Statement (.raSub x) := by
  unfold Statement encodeByte rowOf; revert x; decide
theorem raImm (n : Imm) : Statement (.raImm n) := by
  unfold Statement encodeByte rowOf; revert n; decide
theorem rbAdd (x : BitVec 2) : Statement (.rbAdd x) := by
  unfold Statement encodeByte rowOf; revert x; decide
theorem rbSub (x : BitVec 2) : Statement (.rbSub x) := by
  unfold Statement encodeByte rowOf; revert x; decide
theorem rbImm (n : Imm) : Statement (.rbImm n) := by
  unfold Statement encodeByte rowOf; revert n; decide
theorem roRa (x : BitVec 4) : Statement (.roRa x) := by
  unfold Statement encodeByte rowOf; revert x; decide
theorem unknown (x : BitVec 4) : Statement (.unknown x) := by
  unfold Statement encodeByte rowOf; revert x; decide

end EncodeInRow

end Sys2Proof.Laws
end

