-- ==== Sys2Proof/Tests/Slice0.lean ====
section
/-! SUPPORT. The model's own tests. Expected values come from spec/95_test_vectors.md, whose vector is named in each
group, and never from the model. Below them, for each statement with hypotheses, a witness that meets them. -/

namespace Sys2Proof.Tests

open Sys2Proof Sys2Proof.Machine Sys2Proof.Expected

/-- The vectors' start: N = 8 and the byte `b` at address 2, where PC stands; RA, RB and Carry as given. -/
def probe (b : Byte) (ra rb : Word) (carry : Bool) : State :=
  { State.reset with ra, rb, carry, pc := 2, mem := Memory.load { size := 8, cells := [] } 2 b }

/-- The same byte at the last address of a memory of size `n`. -/
def probeEnd (n : Nat) (b : Byte) (ra rb : Word) (carry : Bool) : State :=
  { State.reset with
    ra, rb, carry, pc := BitVec.ofNat 8 (n - 1), mem := Memory.load { size := n, cells := [] } (n - 1) b }

/-- The next state of a step. -/
def after (s : State) : Option State :=
  match step s with
  | .next t => some t
  | .fault _ => none
  | .refused _ => none

/-! ### Constants and word types (00_scope.md R5 to R9) -/

theorem test_operand_width : Word = BitVec Config.operandWidth := rfl
theorem test_imm_bits : Imm = BitVec Config.immBits := rfl
theorem test_pc_bits : Addr = BitVec Config.pcBits := rfl
theorem test_instr_bits : Byte = BitVec Config.instrBits := rfl
theorem test_max_mem_size : Config.maxMemSize = 2 ^ Config.pcBits := rfl

/-! ### Canonical instructions: one that the check refuses, for each of its tests -/

theorem test_canonical_refuses_j : (Instr.j 1 0).canonical = false := by decide
theorem test_canonical_refuses_jc : (Instr.jc 4 0).canonical = false := by decide
theorem test_canonical_refuses_raAdd : (Instr.raAdd 1).canonical = false := by decide
theorem test_canonical_refuses_raSub : (Instr.raSub 2).canonical = false := by decide
theorem test_canonical_refuses_rbAdd : (Instr.rbAdd 3).canonical = false := by decide
theorem test_canonical_refuses_rbSub : (Instr.rbSub 1).canonical = false := by decide
theorem test_canonical_refuses_roRa : (Instr.roRa 8).canonical = false := by decide
theorem test_canonical_refuses_unknown : (Instr.unknown 0).canonical = false := by decide

/-! ### The canonical form of a memory: what the check refuses -/

theorem test_wf_refuses_size_zero : ¬Memory.wf { size := 0, cells := [] } := by decide
theorem test_wf_refuses_size_257 : ¬Memory.wf { size := 257, cells := [] } := by decide
theorem test_wf_refuses_unsorted : ¬Memory.wf { size := 8, cells := [(2, 1), (1, 1)] } := by decide
theorem test_wf_refuses_repeat : ¬Memory.wf { size := 8, cells := [(1, 1), (1, 2)] } := by decide
theorem test_wf_refuses_zero_byte : ¬Memory.wf { size := 8, cells := [(1, 0)] } := by decide
theorem test_wf_refuses_outside : ¬Memory.wf { size := 8, cells := [(8, 1)] } := by decide
theorem test_load_zero_removes : (Memory.load { size := 8, cells := [(1, 5)] } 1 0).cells = [] := by decide

/-! ### Decoding: a word of every row, written out from 30_encoding.md R61 -/

theorem test_decode_j : decodeTableWord 8 0b10011111 = some (.j 0b0011 0b111) := by decide
theorem test_decode_j_both_bits : decodeTableWord 8 0b11000011 = some (.j 0b1000 0b011) := by decide
theorem test_decode_jc : decodeTableWord 8 0b01001011 = some (.jc 0b001 0b011) := by decide
theorem test_decode_raAdd : decodeTableWord 8 0b00000011 = some (.raAdd 0b11) := by decide
theorem test_decode_raSub : decodeTableWord 8 0b00000110 = some (.raSub 0b10) := by decide
theorem test_decode_raImm : decodeTableWord 8 0b00001101 = some (.raImm 0b101) := by decide
theorem test_decode_rbAdd : decodeTableWord 8 0b00010001 = some (.rbAdd 0b01) := by decide
theorem test_decode_rbSub : decodeTableWord 8 0b00010100 = some (.rbSub 0b00) := by decide
theorem test_decode_rbImm : decodeTableWord 8 0b00011001 = some (.rbImm 0b001) := by decide
theorem test_decode_roRa : decodeTableWord 8 0b00101001 = some (.roRa 0b1001) := by decide
theorem test_decode_unknown : decodeTableWord 8 0b00111010 = some (.unknown 0b1010) := by decide
theorem test_decode_no_byte : decode [] = .error .noByte := rfl
/-- Bits above `nbits` are not part of the word. -/
theorem test_decode_masks : decodeTableWord 8 0x1FF20 = some (.roRa 0) := by decide

/-! ### The descriptor (table DC, spot checks) -/

theorem test_describe_0x19 : describe 0x19 = ⟨.loadImm, .rb, true, 1, false, false⟩ := by decide
theorem test_describe_0x3A : describe 0x3A = ⟨.unknown, .none, false, 2, false, false⟩ := by decide
theorem test_describe_0x4B : describe 0x4B = ⟨.loadImm, .ra, true, 3, false, true⟩ := by decide
theorem test_describe_0xF5 : describe 0xF5 = ⟨.unknown, .none, false, 5, true, true⟩ := by decide

/-! ### The ALU (vectors A1) -/

theorem test_alu_wraps : alu (255 : Word) 1 false = (0, true) := by decide
theorem test_alu_no_signed_flag : alu (127 : Word) 1 false = (128, false) := by decide
theorem test_alu_largest_sum : alu (255 : Word) 255 false = (254, true) := by decide
theorem test_alu_borrow : alu (3 : Word) 5 true = (254, true) := by decide
theorem test_alu_equal : alu (7 : Word) 7 true = (0, false) := by decide
theorem test_alu_zero_minus_255 : alu (0 : Word) 255 true = (1, true) := by decide
theorem test_alu_255_minus_zero : alu (255 : Word) 0 true = (255, false) := by decide

/-! ### One step of each instruction (vectors A2, L, O, J, X) -/

theorem test_raAdd_A2_3 : (after (probe 0x00 3 4 true)).map (fun t => (t.ra, t.rb, t.carry, t.pc)) =
    some (7, 4, false, 3) := by decide
theorem test_raAdd_A2_12 : (after (probeEnd 1 0x00 1 1 false)).map (fun t => (t.ra, t.carry, t.pc, t.status, t.trace)) =
    some (2, false, 0, .haltedNormal, [.retire 0 0x00]) := by decide
theorem test_raSub_A2_4 : (after (probe 0x04 3 5 false)).map (fun t => (t.ra, t.carry, t.pc)) =
    some (254, true, 3) := by decide
theorem test_raSub_A2_11 : (after (probe 0x07 1 2 false)).map (fun t => (t.ra, t.carry, t.pc)) =
    some (255, true, 3) := by decide
theorem test_rbAdd_A2_7 : (after (probe 0x10 250 10 false)).map (fun t => (t.ra, t.rb, t.carry, t.pc)) =
    some (250, 4, true, 3) := by decide
theorem test_rbSub_A2_8 : (after (probe 0x14 10 250 false)).map (fun t => (t.ra, t.rb, t.carry)) =
    some (10, 16, true) := by decide
theorem test_rbSub_A2_9 : (after (probe 0x14 10 10 true)).map (fun t => (t.rb, t.carry)) =
    some (0, false) := by decide
theorem test_raImm_L1 : (after (probe 0x08 99 0 true)).map (fun t => (t.ra, t.pc, t.carry)) =
    some (0, 3, true) := by decide
theorem test_raImm_L2 : (after (probe 0x0F 0 0 false)).map (fun t => (t.ra, t.pc, t.carry)) =
    some (7, 3, false) := by decide
theorem test_rbImm_L3 : (after (probe 0x18 0 9 false)).map (fun t => (t.rb, t.pc)) = some (0, 3) := by decide
theorem test_rbImm_L4 : (after (probe 0x1D 0 0 true)).map (fun t => (t.rb, t.pc, t.carry)) =
    some (5, 3, true) := by decide
theorem test_roRa_O1 : (after { probe 0x20 42 0 true with ro := 7 }).map (fun t => (t.ro, t.pc, t.carry, t.trace)) =
    some (42, 3, true, [.retire 2 0x20, .output 42]) := by decide
theorem test_roRa_O4 : (after (probeEnd 4 0x20 6 0 false)).map (fun t => (t.ro, t.pc, t.status, outputs t)) =
    some (6, 3, .haltedNormal, [6]) := by decide
theorem test_j_J2 : (after (probe 0x9F 0 3 false)).map (fun t => (t.pc, t.rb)) = some (7, 3) := by decide
theorem test_j_J5 : (after { probe 0x00 0 0 false with pc := 1, mem := { size := 4, cells := [(1, 0x86)] } }).map
    (fun t => t.pc) = some 2 := by decide
theorem test_jc_J7 : (after (probe 0x42 255 1 false)).map (fun t => (t.pc, t.ra, t.rb, t.carry)) =
    some (2, 255, 1, false) := by decide
theorem test_jc_J16 : (after (probeEnd 4 0x44 1 2 true)).map (fun t => (t.ra, t.carry, t.pc, t.status)) =
    some (255, true, 3, .haltedNormal) := by decide
theorem test_unknown_X2 : (after (probe 0x3F 4 0 false)).map
    (fun t => (t.status, t.errPC, t.errByte, t.pc, t.ra)) =
    some (.haltedError, 2, 0x3F, 2, 4) := by decide
theorem test_unknown_X3 : (after (probeEnd 4 0x30 0 0 false)).map (fun t => (t.status, t.errPC, t.errByte)) =
    some (.haltedError, 3, 0x30) := by decide

/-! ### Fall-through of a not-taken JC (vectors J10, J13, J14), one step each -/

theorem test_fallThrough_J10 : (after (probe 0x4B 0 0 true)).map (fun t => (t.ra, t.pc, t.carry)) =
    some (3, 3, true) := by decide
theorem test_fallThrough_J13 : (after (probe 0x60 9 0 true)).map (fun t => (t.ro, t.pc, outputs t)) =
    some (9, 3, [9]) := by decide
theorem test_fallThrough_J14 : (after (probe 0x70 0 0 true)).map (fun t => (t.status, t.errPC, t.errByte, t.pc)) =
    some (.haltedError, 2, 0x70, 2) := by decide

/-! ### withFetchWord: the first instruction after reset -/

theorem test_fetchWord_runs_first : (after (State.reset.withFetchWord 8 0x0D)).map (fun t => (t.ra, t.pc)) =
    some (5, 1) := by decide

/-! ### The image (vectors IM) -/

theorem test_text_IM2 : loadText "00001101\n0010000\n00100000".toList = ⟨[0x0D, 0x20], [2]⟩ := by decide
theorem test_text_IM3 : loadText "0000110a".toList = ⟨[], [1]⟩ := by decide
theorem test_text_IM4 : loadText "00001101\r\n".toList = ⟨[0x0D], []⟩ := by decide
theorem test_launch_IM5 : launch 2 (loadRaw [0x0D, 0x20]) =
    .next { State.reset with mem := { size := 2, cells := [(0, 0x0D), (1, 0x20)] } } := rfl
theorem test_launch_IM6 : launch 4 (loadRaw [1, 2, 3, 4, 5]) = .refused .oversizeImage := rfl

/-! ### The assembler (vectors AS) -/

theorem test_assemble_AS5 : assembleLine "RA=5".toList = .accepted (.raImm 5) := by decide
theorem test_assemble_AS8 : assembleLine "J=7".toList = .accepted (.j 0 7) := by decide
theorem test_assemble_AS9 : assembleLine "JC=2".toList = .accepted (.jc 0 2) := by decide
theorem test_assemble_AS10 : assembleLine "  RA = RA + RB  ".toList = .accepted (.raAdd 0) := by decide
theorem test_assemble_AS11 : assembleLine "RA=007".toList = .accepted (.raImm 7) := by decide
theorem test_assemble_AS12 : assembleLine "RA=8".toList = .syntaxError := by decide
theorem test_assemble_AS13 : assembleLine "ra=5".toList = .syntaxError := by decide
theorem test_assemble_AS14 : assembleLine "RO=RB".toList = .syntaxError := by decide
theorem test_assemble_AS15 : assembleLine "J=RA".toList = .syntaxError := by decide
theorem test_assemble_AS16 : assembleLine "RA=1 ; load".toList = .syntaxError := by decide
theorem test_assemble_AS17 : assembleLine "; comment".toList = .ignored := by decide
theorem test_assemble_AS18 : assemble "RA=1\nNOP\nRO=RA\n".toList = ⟨[0x09, 0x20], [(2, "NOP".toList)]⟩ := by decide
theorem test_dis_0xF5 : dis 0xF5 = "J=5".toList := by decide
theorem test_dis_0x3A : dis 0x3A = "UNKNOWN".toList := by decide
theorem test_traceRecords : traceRecords [.retire 2 0x20, .output 42] = [⟨2, "RO=RA".toList, some 42⟩] := by decide

/-! ### Witnesses: for each statement with hypotheses, a state and operands that meet them -/

/-- An enabled edge without reset. -/
def runPin : Pins := { rst := false, run := true, step := false }

/-- The pulse of step mode. -/
def stepPin : Pins := { rst := false, run := false, step := true }

/-- An edge that enables nothing. -/
def idlePin : Pins := { rst := false, run := false, step := false }

/-- A reset edge. -/
def resetPin : Pins := { rst := true, run := false, step := false }

/-- A halted state. -/
def halted : State := { probe 0x20 1 2 true with status := .haltedError, errPC := 2, errByte := 0x30 }

theorem witness_ResetHoldsSpecValues : ∃ u : State, halted.applyReset = u.applyReset ∧ u.status ≠ .running :=
  ⟨halted, rfl, by decide⟩
theorem witness_ResetInputRestoresRegisters : resetPin.rst = true ∧ runPin.rst = false ∧
    halted.status ≠ .running ∧ clock runPin halted = .next halted := ⟨rfl, rfl, by decide, rfl⟩
theorem witness_EnabledEdgesAreSteps : (∀ p ∈ [runPin, idlePin, stepPin], p.rst = false) ∧
    clocks [runPin, idlePin, stepPin] (probe 0x20 1 2 true) = runSteps 2 (probe 0x20 1 2 true) := ⟨by decide, rfl⟩
theorem witness_TwoCycleControllerIsEquivalent : (∃ t, runSteps 2 (probe 0x20 1 2 true) = .next t) ∧
    ∃ u, twoCycleClocks [runPin, runPin, runPin] { core := probe 0x20 1 2 true, latch := none } = .next u :=
  ⟨⟨_, rfl⟩, _, rfl⟩
theorem witness_StrobesMatchEvents : runPin.rst = false ∧ ∃ t, clock runPin (probe 0x20 1 2 true) = .next t ∧
    (strobes runPin (probe 0x20 1 2 true)).out = some 1 := ⟨rfl, _, rfl, by decide⟩
theorem witness_DecodedBytesAreEncoded : decode [0x20, 0x01] = .ok (.roRa 0, [0x01]) := rfl
theorem witness_IgnoredBitsChangeNothingElse : ∃ x y, Instr.unknown 15 = .unknown x ∧ Instr.unknown 0 = .unknown y :=
  ⟨15, 0, rfl, rfl⟩
theorem witness_IgnoredBits_fallThrough : (probe 0x43 1 1 true).carry = true ∧ (0 : Imm)[2] = (3 : Imm)[2] ∧
    ((5 : BitVec 3) = 4 ∨ (5 : BitVec 3) = 5) ∧ ((7 : BitVec 3) = 6 ∨ (7 : BitVec 3) = 7) := by decide
theorem witness_JumpAfterSubtraction_jumps : (probe 0x04 5 5 false).rb.toNat ≤ (probe 0x04 5 5 false).ra.toNat := by
  decide
theorem witness_JumpAfterSubtraction_borrows : (probe 0x04 4 5 false).ra.toNat < (probe 0x04 4 5 false).rb.toNat := by
  decide
theorem witness_JumpAfterSubtraction_fallThrough : (probe 0x44 4 5 true).carry = true ∧
    ((0 : BitVec 3) = 0 ∨ (0 : BitVec 3) = 2) ∧ 4 ≤ (4 : Imm).toNat ∧
    (probe 0x44 4 5 true).ra.toNat < (probe 0x44 4 5 true).rb.toNat := by decide
theorem witness_RaAddWritesSumAndCarry : (3 : Imm).toNat < 4 ∧ (probe 0x43 255 1 true).carry = true := by decide
theorem witness_RaSubWritesDifferenceAndBorrow : 4 ≤ (4 : Imm).toNat ∧ (probe 0x44 3 5 true).carry = true := by decide
theorem witness_RbAddWritesSumAndCarry : (0 : Imm).toNat < 4 ∧ (probe 0x50 1 1 true).carry = true := by decide
theorem witness_RbSubWritesDifferenceAndBorrow : 4 ≤ (7 : Imm).toNat ∧ (probe 0x57 1 1 true).carry = true := by decide
theorem witness_ImmLoads_fallThrough : (probe 0x4F 0 0 true).carry = true := by decide
theorem witness_RoRaCopiesAndOutputs : ((5 : BitVec 3) = 4 ∨ (5 : BitVec 3) = 5) ∧
    (probe 0x68 9 0 true).carry = true := by decide
theorem witness_ConditionalJump_taken : (probe 0x42 255 1 false).carry = false := by decide
theorem witness_ConditionalJump_raises : (probe 0x70 0 0 true).carry = true ∧ 6 ≤ (6 : BitVec 3).toNat := by decide
theorem witness_ConditionalJump_fallsThrough : (probe 0x68 0 0 true).carry = true ∧ (5 : BitVec 3).toNat < 6 := by decide
theorem witness_TakenJumpStep : (probe 0x77 0 0 false).status = .running ∧
    fetch (probe 0x77 0 0 false) = some 0x77 ∧ jumps 0x77 (probe 0x77 0 0 false) :=
  ⟨rfl, by decide, .inr ⟨by decide, rfl⟩⟩
theorem witness_SelfJumpRunsForever : (probe 0x82 0 0 true).status = .running ∧
    fetch (probe 0x82 0 0 true) = some 0x82 ∧ jumps 0x82 (probe 0x82 0 0 true) ∧
    (probe 0x82 0 0 true).pc.toNat = (0x82 : Byte).toNat % 8 := ⟨rfl, by decide, .inl (by decide), by decide⟩
theorem witness_ReservedPatternRecordsError : ((7 : BitVec 3) = 6 ∨ (7 : BitVec 3) = 7) ∧
    (probe 0x7F 0 0 true).carry = true ∧ halted.status = .haltedError := by decide
theorem witness_ErrorHaltIffReservedByteRuns : (probe 0x7F 0 0 true).status = .running ∧
    fetch (probe 0x7F 0 0 true) = some 0x7F ∧ ∃ t, step (probe 0x7F 0 0 true) = .next t := ⟨rfl, by decide, _, rfl⟩
theorem witness_StepRunsDecodedInstruction : (probe 0x30 0 0 false).status = .running ∧
    (probe 0x30 0 0 false).mem.read (probe 0x30 0 0 false).pc.toNat = some 0x30 ∧
    decode [0x30] = .ok (.unknown 0, []) := ⟨rfl, by decide, rfl⟩
theorem witness_StepIsDescriptorEngine : (probe 0x5C 0 0 true).status = .running ∧
    fetch (probe 0x5C 0 0 true) = some 0x5C := by decide

/-- The hypotheses that statements about a step share. -/
def stepsWith (s : State) (b : Byte) : Prop := s.status = .running ∧ fetch s = some b ∧ ∃ t, step s = .next t

theorem witness_PcAndStatus_jumps : stepsWith (probe 0xFF 0 0 true) 0xFF ∧ jumps 0xFF (probe 0xFF 0 0 true) ∧
    (probe 0xFF 0 0 true).mem.size ≤ 256 := ⟨⟨rfl, by decide, _, rfl⟩, .inl (by decide), by decide⟩
theorem witness_PcAndStatus_raises : stepsWith (probe 0x70 0 0 true) 0x70 ∧ ¬jumps 0x70 (probe 0x70 0 0 true) ∧
    dField 0x70 = 3 := ⟨⟨rfl, by decide, _, rfl⟩, by simp [jumps, probe], by decide⟩
theorem witness_PcAndStatus_ends : stepsWith (probeEnd 256 0x20 0 0 false) 0x20 ∧
    ¬jumps 0x20 (probeEnd 256 0x20 0 0 false) ∧ dField 0x20 ≠ 3 ∧ (probeEnd 256 0x20 0 0 false).mem.size ≤ 256 ∧
    (probeEnd 256 0x20 0 0 false).pc.toNat = (probeEnd 256 0x20 0 0 false).mem.size - 1 :=
  ⟨⟨rfl, by decide, _, rfl⟩, by simp [jumps], by decide, by decide, by decide⟩
theorem witness_PcAndStatus_advances : stepsWith (probe 0x20 0 0 false) 0x20 ∧ ¬jumps 0x20 (probe 0x20 0 0 false) ∧
    dField 0x20 ≠ 3 ∧ (probe 0x20 0 0 false).pc.toNat ≠ (probe 0x20 0 0 false).mem.size - 1 :=
  ⟨⟨rfl, by decide, _, rfl⟩, by simp [jumps], by decide, by decide⟩
theorem witness_FrameOfEveryStep : stepsWith (probe 0x14 1 2 false) 0x14 ∧ dField 0x14 ≠ 0 ∧ dField 0x14 ≠ 2 ∧
    dField 0x14 ≠ 3 := ⟨⟨rfl, by decide, _, rfl⟩, by decide, by decide, by decide⟩
theorem witness_FrameOfEveryStep_jump : stepsWith (probe 0x80 1 2 false) 0x80 ∧ jumps 0x80 (probe 0x80 1 2 false) :=
  ⟨⟨rfl, by decide, _, rfl⟩, .inl (by decide)⟩
theorem witness_FrameOfEveryStep_rb : stepsWith (probe 0x00 1 2 false) 0x00 ∧ dField 0x00 ≠ 1 :=
  ⟨⟨rfl, by decide, _, rfl⟩, by decide⟩
theorem witness_CarryWrittenByAluPathOnly_add : stepsWith (probe 0x00 255 1 false) 0x00 ∧
    ¬jumps 0x00 (probe 0x00 255 1 false) ∧ dField 0x00 < 2 ∧ (0x00 : Byte).toNat / 8 % 2 = 0 ∧
    (0x00 : Byte).toNat / 4 % 2 = 0 := ⟨⟨rfl, by decide, _, rfl⟩, by simp [jumps], by decide, by decide, by decide⟩
theorem witness_CarryWrittenByAluPathOnly_sub : stepsWith (probe 0x57 1 1 true) 0x57 ∧
    ¬jumps 0x57 (probe 0x57 1 1 true) ∧ dField 0x57 < 2 ∧ (0x57 : Byte).toNat / 8 % 2 = 0 ∧
    (0x57 : Byte).toNat / 4 % 2 = 1 :=
  ⟨⟨rfl, by decide, _, rfl⟩, by simp [jumps, probe], by decide, by decide, by decide⟩
theorem witness_CarryWrittenByAluPathOnly_keeps : stepsWith (probe 0x08 1 1 true) 0x08 ∧
    (0x08 : Byte).toNat / 8 % 2 ≠ 0 := ⟨⟨rfl, by decide, _, rfl⟩, by decide⟩
theorem witness_EveryStepRetiresOnce : stepsWith (probe 0x42 255 1 true) 0x42 := ⟨rfl, by decide, _, rfl⟩
theorem witness_EveryStepRetiresOnce_raises : ∃ t, step (probe 0x30 0 0 false) = .next t ∧ t.status = .haltedError :=
  ⟨_, rfl, by decide⟩
theorem witness_OutputEventIffOutputPath_none : stepsWith (probe 0x30 9 0 true) 0x30 ∧ dField 0x30 ≠ 2 :=
  ⟨⟨rfl, by decide, _, rfl⟩, by decide⟩
theorem witness_OutputEventIffOutputPath : stepsWith (probe 0x60 9 0 true) 0x60 ∧
    ¬jumps 0x60 (probe 0x60 9 0 true) ∧ dField 0x60 = 2 :=
  ⟨⟨rfl, by decide, _, rfl⟩, by simp [jumps, probe], by decide⟩
theorem witness_HaltedCoreStaysPut : halted.status ≠ .running ∧ ∀ p ∈ [runPin], p.rst = false := by decide
theorem witness_ObservationIsFinalAtEnd : ∃ t, runSteps 1 (probe 0x30 0 0 false) = .next t ∧ t.halted = true ∧ 1 ≤ 3 :=
  ⟨_, rfl, by decide, by decide⟩
theorem witness_TraceRecords_output : stepsWith (probe 0x20 9 0 true) 0x20 ∧
    ¬jumps 0x20 (probe 0x20 9 0 true) ∧ dField 0x20 = 2 := ⟨⟨rfl, by decide, _, rfl⟩, by simp [jumps], by decide⟩
theorem witness_TraceRecords_noOutput : stepsWith (probe 0x18 9 0 true) 0x18 ∧ dField 0x18 < 2 :=
  ⟨⟨rfl, by decide, _, rfl⟩, by decide⟩
theorem witness_TraceRecords_raises : stepsWith (probe 0x70 0 0 true) 0x70 ∧ ¬jumps 0x70 (probe 0x70 0 0 true) ∧
    dField 0x70 = 3 := witness_PcAndStatus_raises
theorem witness_FetchOutsideMemoryFaults : (∃ s : State, s = { probe 0x00 0 0 false with pc := 8 } ∧
    s.status = .running ∧ s.mem.size ≤ s.pc.toNat) := ⟨_, rfl, rfl, by decide⟩
theorem witness_FetchWordRunsNext : (probe 0x00 0 0 false).mem.wf ∧ (probe 0x00 0 0 false).status = .running ∧
    (probe 0x00 0 0 false).pc.toNat < (probe 0x00 0 0 false).mem.size := by decide

/-- A probe's state meets the machine's invariant. -/
theorem probe_inv : CoreInv (probe 0x20 5 2 false) where
  memWf := by decide
  pcInMemory := by decide
  normalAtEnd := by decide
  errorRecord := by decide
  noErrorRecord := by decide

theorem witness_StepKeepsInvariant : CoreInv (probe 0x20 5 2 false) ∧ ∃ t, step (probe 0x20 5 2 false) = .next t :=
  ⟨probe_inv, _, rfl⟩
theorem witness_StepKeepsTraceFaithful : ∃ s : State, s = { probe 0x20 5 2 false with trace := [.retire 2 0x20] } ∧
    TraceFaithful s ∧ ∃ t, step s = .next t := by
  refine ⟨_, rfl, fun pc b h => ?_, _, rfl⟩
  obtain ⟨rfl, rfl⟩ : pc = 2 ∧ b = 0x20 := by simpa using h
  decide
theorem witness_StepKeepsRoLastOutput : ∃ s : State, s = { probe 0x20 5 2 false with ro := 9, trace := [.output 9] } ∧
    RoIsLastOutput s ∧ ∃ t, step s = .next t := ⟨_, rfl, by unfold RoIsLastOutput; decide, _, rfl⟩
theorem witness_StepKeepsCarryFromAlu : ∃ s : State, s = { probe 0x20 5 2 true with trace := [.retire 1 0x00] } ∧
    CarryFromAlu s ∧ ∃ t, step s = .next t :=
  ⟨_, rfl, fun _ => ⟨1, 0x00, by decide, by decide⟩, _, rfl⟩
theorem witness_MemoryIsNeverWritten : ∃ t, clocks [runPin, resetPin, runPin] (probe 0x20 5 2 false) = .next t :=
  ⟨_, rfl⟩
theorem witness_OutputsAreNeverRead : ∃ s' : State, s' = { probe 0x20 5 2 false with ro := 7, errByte := 1 } ∧
    agreeOnReadable (probe 0x20 5 2 false) s' ∧ ∃ t, step (probe 0x20 5 2 false) = .next t :=
  ⟨_, rfl, ⟨rfl, rfl, rfl, rfl, rfl, rfl⟩, _, rfl⟩
theorem witness_LaunchLoadsImage_fits : 1 ≤ 1 ∧ 1 ≤ 256 ∧ ([0x20] : List Byte).length ≤ 1 := by decide
theorem witness_LaunchLoadsImage_oversize : 1 ≤ 2 ∧ 2 ≤ 256 ∧ 2 < ([1, 2, 3] : List Byte).length := by decide
theorem witness_LaunchLoadsImage_size : 256 < 257 := by decide
theorem witness_LaunchLoadsImage_size_zero : (0 : Nat) = 0 ∧ launch 0 [] = .refused .memSizeOutOfRange := ⟨rfl, rfl⟩
theorem witness_LaunchedCoreRunsOn : ∃ s, launch 256 [0x20] = .next s := ⟨_, rfl⟩
theorem witness_StraightLineMemoryHalts : CoreInv (probe 0x20 5 2 false) ∧
    ∀ a b, (probe 0x20 5 2 false).mem.read a = some b → b.toNat < 0x40 := by
  refine ⟨probe_inv, fun a b h => ?_⟩
  obtain ⟨-, rfl⟩ := read_cases h
  have hc : (probe 0x20 5 2 false).mem.cells = [(2, 0x20)] := by decide
  rw [hc, cellsRead_cons, cellsRead_nil]
  split <;> decide
theorem test_zeros_only_in_literal : assembleLine "R0A=5".toList = .syntaxError := by decide
theorem witness_AcceptedLinesAreCanonical : assembleLine "JC=07".toList = .accepted (.jc 0 7) := by decide
theorem witness_AssembleOfDisassemble : (Instr.jc 0 7).canonical = true := by decide
theorem witness_LiteralsAreRangeChecked : literal "007".toList = some 7 := by decide
theorem witness_TextImageLines : ∃ b, textLine "11111111".toList = some b := ⟨0xFF, by decide⟩

end Sys2Proof.Tests
end

/-! The step of a running core as one function of the fetched byte, and the inversion that every proof about a step
goes through: which of the five paths of 43_execution_engine.md R161 ran, with the fields of the byte that chose
it. -/

namespace Sys2Proof.Proofs

open Sys2Proof.Machine Sys2Proof.Expected

/-! ### The fields of a byte (30_encoding.md R61 to R65), as bits and as numbers -/

theorem toNat_div_mod_two (b : Byte) (i : Nat) (hi : i < 8) : b.toNat / 2 ^ i % 2 = b[i].toNat := by
  rw [← BitVec.getLsbD_eq_getElem, BitVec.getLsbD, Nat.toNat_testBit]

/-- D = b[5:4], read off its two bits. -/
theorem dField_eq (b : Byte) : dField b = 2 * b[5].toNat + b[4].toNat := by
  rw [← toNat_div_mod_two b 5, ← toNat_div_mod_two b 4, dField]
  omega

theorem dField_lt_two_iff (b : Byte) : dField b < 2 ↔ b[5] = false := by
  rw [dField_eq]
  cases b[5] <;> cases b[4] <;> decide

/-- Sreg = b[3], as a number. -/
theorem toNat_div_eight (b : Byte) : b.toNat / 8 % 2 = b[3].toNat := toNat_div_mod_two b 3 (by decide)

/-- S = b[2], as a number. -/
theorem toNat_div_four (b : Byte) : b.toNat / 4 % 2 = b[2].toNat := toNat_div_mod_two b 2 (by decide)

theorem destOf_eq (b : Byte) : destOf b =
    if dField b = 0 then .ra else if dField b = 1 then .rb else if dField b = 2 then .ro else .none := by
  rw [dField_eq, destOf]
  cases b[5] <;> cases b[4] <;> rfl

theorem destOf_eq_ra_iff (b : Byte) : destOf b = .ra ↔ dField b = 0 := by
  rw [destOf_eq]; split_ifs <;> simp_all

theorem destOf_eq_rb_iff (b : Byte) : destOf b = .rb ↔ dField b = 1 := by
  rw [destOf_eq]; split_ifs <;> simp_all

theorem destOf_eq_ro_iff (b : Byte) : destOf b = .ro ↔ dField b = 2 := by
  rw [destOf_eq]; split_ifs <;> simp_all

/-- The class of a byte (30_encoding.md R68), D first, then Sreg, then S. -/
theorem classOf_eq (b : Byte) : classOf b =
    if dField b = 3 then .unknown else if dField b = 2 then .output
    else if b[3] then .loadImm else if b[2] then .aluSub else .aluAdd := by
  rw [dField_eq, classOf, destOf]
  cases b[5] <;> cases b[4] <;> rfl

theorem jumpTaken_iff (b : Byte) (s : State) : jumpTaken b s.carry = true ↔ jumps b s := by
  simp [jumpTaken, describe, jumps]

/-! ### The descriptor of an instruction's byte -/

theorem describe_j (x : BitVec 4) (n : Imm) : (describe (encodeByte (.j x n))).isJump = true ∧
    (describe (encodeByte (.j x n))).immediateValue = n := by
  revert x n; decide

theorem describe_jc (f : BitVec 3) (n : Imm) : (describe (encodeByte (.jc f n))).isJump = false ∧
    (describe (encodeByte (.jc f n))).isConditionalJump = true ∧
    (describe (encodeByte (.jc f n))).immediateValue = n := by
  revert f n; decide

theorem describe_raAdd (x : BitVec 2) : describe (encodeByte (.raAdd x)) =
    ⟨.aluAdd, .ra, false, x.setWidth 3, false, false⟩ := by
  revert x; decide

theorem describe_raSub (x : BitVec 2) : describe (encodeByte (.raSub x)) =
    ⟨.aluSub, .ra, false, 0b1#1 ++ x, false, false⟩ := by
  revert x; decide

theorem describe_raImm (n : Imm) : describe (encodeByte (.raImm n)) = ⟨.loadImm, .ra, true, n, false, false⟩ := by
  revert n; decide

theorem describe_rbAdd (x : BitVec 2) : describe (encodeByte (.rbAdd x)) =
    ⟨.aluAdd, .rb, false, x.setWidth 3, false, false⟩ := by
  revert x; decide

theorem describe_rbSub (x : BitVec 2) : describe (encodeByte (.rbSub x)) =
    ⟨.aluSub, .rb, false, 0b1#1 ++ x, false, false⟩ := by
  revert x; decide

theorem describe_rbImm (n : Imm) : describe (encodeByte (.rbImm n)) = ⟨.loadImm, .rb, true, n, false, false⟩ := by
  revert n; decide

theorem describe_roRa (x : BitVec 4) : describe (encodeByte (.roRa x)) =
    ⟨.output, .ro, false, x.setWidth 3, false, false⟩ := by
  revert x; decide

theorem describe_unknown (x : BitVec 4) : describe (encodeByte (.unknown x)) =
    ⟨.unknown, .none, false, x.setWidth 3, false, false⟩ := by
  revert x; decide

/-! ### One function of the byte -/

/-- The whole byte is readable off the decoded instruction (30_encoding.md R69). -/
theorem encodeByte_decodeByte (b : Byte) : encodeByte (decodeByte b) = b := by
  revert b; decide

/-- What the byte `b`, fetched at PC, does: a taken jump, or else its destination path (43_execution_engine.md
R161). -/
def runByte (b : Byte) (s : State) : State :=
  if jumpTaken b s.carry then jumpPath b (describe b).immediateValue s else destinationPath b s

/-- Every instruction does what its byte does, ignored bits and fall-through included. -/
theorem exec_eq (i : Instr) (s : State) : exec i s = .next (runByte (encodeByte i) s) := by
  cases i with
  | j x n =>
    obtain ⟨hj, hn⟩ := describe_j x n
    simp [exec, execJ, runByte, jumpTaken, hj, hn]
  | jc f n =>
    obtain ⟨hj, hc, hn⟩ := describe_jc f n
    cases h : s.carry <;> simp [exec, execJc, runByte, jumpTaken, hj, hc, hn, h]
  | raAdd x => simp [exec, execRaAdd, runByte, jumpTaken, destinationPath, describe_raAdd]
  | raSub x => simp [exec, execRaSub, runByte, jumpTaken, destinationPath, describe_raSub]
  | raImm n => simp [exec, execRaImm, runByte, jumpTaken, destinationPath, describe_raImm]
  | rbAdd x => simp [exec, execRbAdd, runByte, jumpTaken, destinationPath, describe_rbAdd]
  | rbSub x => simp [exec, execRbSub, runByte, jumpTaken, destinationPath, describe_rbSub]
  | rbImm n => simp [exec, execRbImm, runByte, jumpTaken, destinationPath, describe_rbImm]
  | roRa x => simp [exec, execRoRa, runByte, jumpTaken, destinationPath, describe_roRa]
  | unknown x => simp [exec, execUnknown, runByte, jumpTaken, destinationPath, describe_unknown]

theorem step_eq_runByte {s : State} {b : Byte} (hr : s.status = .running) (hb : fetch s = some b) :
    step s = .next (runByte b s) := by
  rw [step_of_fetch hr hb, exec_eq, encodeByte_decodeByte]

/-! ### The five paths -/

theorem runByte_of_jumps {b : Byte} {s : State} (hj : jumps b s) :
    runByte b s = jumpPath b (b.extractLsb' 0 3) s :=
  if_pos ((jumpTaken_iff b s).2 hj)

theorem runByte_of_not_jumps {b : Byte} {s : State} (hj : ¬jumps b s) : runByte b s = destinationPath b s :=
  if_neg fun h => hj ((jumpTaken_iff b s).1 h)

theorem destinationPath_of_alu {b : Byte} (s : State) (hd : dField b < 2) (h3 : b[3] = false) :
    destinationPath b s = aluPath b (destOf b) b[2] s := by
  have hc : classOf b = if b[2] then .aluSub else .aluAdd := by
    rw [classOf_eq, if_neg (by omega), if_neg (by omega), h3]; rfl
  cases h2 : b[2] <;> simp [destinationPath, describe, hc, h2]

theorem destinationPath_of_imm {b : Byte} (s : State) (hd : dField b < 2) (h3 : b[3] = true) :
    destinationPath b s = immPath b (destOf b) (b.extractLsb' 0 3) s := by
  have hc : classOf b = .loadImm := by rw [classOf_eq, if_neg (by omega), if_neg (by omega), if_pos h3]
  simp [destinationPath, describe, hc]

theorem destinationPath_of_output {b : Byte} (s : State) (hd : dField b = 2) :
    destinationPath b s = outputPath b s := by
  simp [destinationPath, describe, classOf_eq, hd]

theorem destinationPath_of_unknown {b : Byte} (s : State) (hd : dField b = 3) :
    destinationPath b s = raiseDecodeUnknown b s := by
  simp [destinationPath, describe, classOf_eq, hd]

/-- Which path of R161 the byte `b` takes from `s`, and the state it leads to. -/
inductive RunsTo (b : Byte) (s : State) : State → Prop
  | jump (hj : jumps b s) : RunsTo b s (jumpPath b (b.extractLsb' 0 3) s)
  | alu (hj : ¬jumps b s) (hd : dField b < 2) (h3 : b[3] = false) : RunsTo b s (aluPath b (destOf b) b[2] s)
  | imm (hj : ¬jumps b s) (hd : dField b < 2) (h3 : b[3] = true) :
      RunsTo b s (immPath b (destOf b) (b.extractLsb' 0 3) s)
  | output (hj : ¬jumps b s) (hd : dField b = 2) : RunsTo b s (outputPath b s)
  | unknown (hj : ¬jumps b s) (hd : dField b = 3) : RunsTo b s (raiseDecodeUnknown b s)

theorem runsTo_runByte (b : Byte) (s : State) : RunsTo b s (runByte b s) := by
  by_cases hj : jumps b s
  · exact runByte_of_jumps hj ▸ .jump hj
  · rw [runByte_of_not_jumps hj]
    have hD : dField b < 2 ∨ dField b = 2 ∨ dField b = 3 := by unfold dField; omega
    obtain hd | hd | hd := hD
    · cases h3 : b[3] with
      | false => exact destinationPath_of_alu s hd h3 ▸ .alu hj hd h3
      | true => exact destinationPath_of_imm s hd h3 ▸ .imm hj hd h3
    · exact destinationPath_of_output s hd ▸ .output hj hd
    · exact destinationPath_of_unknown s hd ▸ .unknown hj hd

theorem RunsTo.eq_runByte {b : Byte} {s t : State} (h : RunsTo b s t) : t = runByte b s := by
  cases h with
  | jump hj => exact (runByte_of_jumps hj).symm
  | alu hj hd h3 => rw [runByte_of_not_jumps hj, destinationPath_of_alu s hd h3]
  | imm hj hd h3 => rw [runByte_of_not_jumps hj, destinationPath_of_imm s hd h3]
  | output hj hd => rw [runByte_of_not_jumps hj, destinationPath_of_output s hd]
  | unknown hj hd => rw [runByte_of_not_jumps hj, destinationPath_of_unknown s hd]

/-- The inversion of a step of a running core, in both directions. -/
theorem step_next_iff {s t : State} {b : Byte} (hr : s.status = .running) (hb : fetch s = some b) :
    step s = .next t ↔ RunsTo b s t := by
  rw [step_eq_runByte hr hb, Host.Outcome.next.injEq]
  exact ⟨fun h => h ▸ runsTo_runByte b s, fun h => h.eq_runByte.symm⟩

/-- A step either leaves a halted core alone or runs the byte at PC. -/
theorem step_inversion {s t : State} (h : step s = .next t) :
    (s.status ≠ .running ∧ t = s) ∨ (s.status = .running ∧ ∃ b, fetch s = some b ∧ RunsTo b s t) := by
  obtain hhalt | ⟨hr, b, hb, -⟩ := step_cases h
  · exact .inl hhalt
  · exact .inr ⟨hr, b, hb, (step_next_iff hr hb).1 h⟩

/-- No path writes the memory (20_memory.md R42). -/
theorem RunsTo.mem_eq {b : Byte} {s t : State} (h : RunsTo b s t) : t.mem = s.mem := by
  cases h with
  | jump => rfl
  | alu => rw [aluPath_eq]
  | imm => rw [immPath_eq]
  | output => rw [outputPath_eq]
  | unknown => rfl

end Sys2Proof.Proofs

/-! The statements of 10_state.md: the invariants that every step keeps, what a step leaves unchanged, and the state
after reset. -/

namespace Sys2Proof.Proofs

open Sys2Proof.Machine Sys2Proof.Expected

/-! ### The machine's invariant -/

theorem jumpTarget_lt {n : Imm} {s : State} (h : 0 < s.mem.size) : (jumpTarget n s).toNat < s.mem.size := by
  rw [jumpTarget, BitVec.toNat_ofNat]
  exact lt_of_le_of_lt (Nat.mod_le _ _) (Nat.mod_lt _ h)

/-- The invariant of a running core. -/
theorem coreInv_iff_of_running {s : State} (hr : s.status = .running) :
    CoreInv s ↔ s.mem.wf ∧ s.pc.toNat < s.mem.size ∧ s.errPC = 0 ∧ s.errByte = 0 := by
  constructor
  · intro ⟨hwf, hpc, _, _, hno⟩
    exact ⟨hwf, hpc, hno (by simp [hr])⟩
  · intro ⟨hwf, hpc, hno⟩
    exact ⟨hwf, hpc, by simp [hr], by simp [hr], fun _ => hno⟩

/-- `advance()` keeps the invariant: it halts at N - 1 and below that moves to an address of the memory. -/
theorem coreInv_advance {s : State} (hr : s.status = .running) (h : CoreInv s) : CoreInv (advance s) := by
  obtain ⟨hwf, hpc, hno⟩ := (coreInv_iff_of_running hr).1 h
  unfold advance
  split
  · next hend => exact ⟨hwf, hpc, fun _ => hend, by simp, fun _ => hno⟩
  · next hend =>
    refine (coreInv_iff_of_running (s := s.setPC (s.pc + 1)) hr).2 ⟨hwf, ?_, hno⟩
    have hsize : s.mem.size ≤ 256 := hwf.2.1
    rw [setPC_pc, setPC_mem]
    bv_omega

/-- What runs before `advance()` on every path that reaches it: the writes of RA, RB, RO, Carry and the trace, which
the invariant of a running core does not mention. -/
theorem coreInv_writes {s : State} (hr : s.status = .running) (h : CoreInv s) (ra rb ro : Word) (carry : Bool)
    (trace : List Event) : CoreInv { s with ra, rb, ro, carry, trace } :=
  (coreInv_iff_of_running (s := { s with ra, rb, ro, carry, trace }) hr).2 ((coreInv_iff_of_running hr).1 h)

/-- The reserved pattern, read off the bits of a byte that takes no jump. -/
theorem raisesUnknown_of_dField {b : Byte} {s : State} (hj : ¬jumps b s) (hd : dField b = 3) :
    raisesUnknown b s.carry = true := by
  rw [dField_eq] at hd
  cases h5 : b[5] <;> cases h4 : b[4] <;> simp_all [raisesUnknown, jumps, imp_iff_not_or]

theorem coreInv_of_runsTo {b : Byte} {s t : State} (hr : s.status = .running) (hb : fetch s = some b)
    (h : CoreInv s) (hrun : RunsTo b s t) : CoreInv t := by
  cases hrun with
  | jump =>
    obtain ⟨hwf, hpc, hno⟩ := (coreInv_iff_of_running hr).1 h
    exact (coreInv_iff_of_running (s := jumpPath _ _ s) hr).2 ⟨hwf, jumpTarget_lt (Nat.zero_lt_of_lt hpc), hno⟩
  | alu =>
    rw [aluPath, writeDest_eq]
    exact coreInv_advance hr (coreInv_writes hr h _ _ _ _ _)
  | imm =>
    rw [immPath, writeDest_eq]
    exact coreInv_advance hr (coreInv_writes hr h _ _ _ _ _)
  | output =>
    rw [outputPath, writeDest_eq]
    exact coreInv_advance hr (coreInv_writes hr h _ _ _ _ _)
  | unknown hj hd =>
    exact ⟨h.memWf, h.pcInMemory, by simp [raiseDecodeUnknown],
      fun _ => ⟨rfl, hb, raisesUnknown_of_dField hj hd⟩, fun hne => absurd rfl hne⟩

/-- Settles O42: the step inversion, with one case per path. -/
theorem stepKeepsInvariant : Obligations.StepKeepsInvariant := by
  intro s t h hstep
  obtain ⟨-, rfl⟩ | ⟨hr, b, hb, hrun⟩ := step_inversion hstep
  · exact h
  · exact coreInv_of_runsTo hr hb h hrun

/-! ### RO and the outputs -/

theorem outputs_append {s t : State} {es : List Event} (h : t.trace = s.trace ++ es) :
    outputs t = outputs s ++ es.filterMap Event.outputValue := by
  rw [outputs, h, List.filterMap_append, outputs]

/-- Only the output path writes RO and outputs; it does both with RA (41_register_writes.md R123). -/
theorem RunsTo.ro_outputs {b : Byte} {s t : State} (h : RunsTo b s t) :
    (t.ro = s.ro ∧ outputs t = outputs s) ∨ (t.ro = s.ra ∧ outputs t = outputs s ++ [s.ra]) := by
  cases h with
  | jump => exact .inl ⟨rfl, by rw [jumpPath_eq, outputs_append rfl]; simp⟩
  | alu hj hd =>
    have hro : destOf b ≠ .ro := by rw [Ne, destOf_eq_ro_iff]; omega
    rw [aluPath_eq]
    exact .inl ⟨if_neg hro, by rw [outputs_append rfl]; exact List.append_nil _⟩
  | imm hj hd =>
    have hro : destOf b ≠ .ro := by rw [Ne, destOf_eq_ro_iff]; omega
    rw [immPath_eq]
    exact .inl ⟨if_neg hro, by rw [outputs_append rfl]; exact List.append_nil _⟩
  | output =>
    rw [outputPath_eq]
    exact .inr ⟨rfl, by rw [outputs_append rfl]; rfl⟩
  | unknown => exact .inl ⟨rfl, rfl⟩

/-- Settles O44: a step either keeps RO and the outputs or puts RA at the end of both. -/
theorem stepKeepsRoLastOutput : Obligations.StepKeepsRoLastOutput := by
  intro s t h hstep
  obtain ⟨-, rfl⟩ | ⟨-, b, -, hrun⟩ := step_inversion hstep
  · exact h
  · obtain ⟨hro, hout⟩ | ⟨hro, hout⟩ := hrun.ro_outputs
    · rwa [RoIsLastOutput, hro, hout]
    · rw [RoIsLastOutput, hro, hout, List.getLast?_concat, Option.getD_some]

/-! ### Carry -/

/-- The bytes of the ALU path, read off the bits of a byte that takes no jump. -/
theorem canTakeAluPath_of_dField {b : Byte} {s : State} (hj : ¬jumps b s) (hd : dField b < 2)
    (h3 : b[3] = false) : canTakeAluPath b = true := by
  obtain ⟨h7, -⟩ := not_or.1 hj
  have h5 := (dField_lt_two_iff b).1 hd
  simp [canTakeAluPath, h3, h5, h7]

/-- A step that keeps Carry and every event keeps its justification. -/
theorem carryFromAlu_of_trace_append {s t : State} {es : List Event} (h : CarryFromAlu s)
    (hc : t.carry = s.carry) (ht : t.trace = s.trace ++ es) : CarryFromAlu t := by
  intro hset
  obtain ⟨pc, b, hmem, halu⟩ := h (hc ▸ hset)
  exact ⟨pc, b, by rw [ht]; exact List.mem_append_left _ hmem, halu⟩

/-- Settles O45: the ALU path retires a byte of its own kind, and every other path keeps Carry. -/
theorem stepKeepsCarryFromAlu : Obligations.StepKeepsCarryFromAlu := by
  intro s t h hstep
  obtain ⟨-, rfl⟩ | ⟨-, b, -, hrun⟩ := step_inversion hstep
  · exact h
  · cases hrun with
    | jump => exact carryFromAlu_of_trace_append h rfl rfl
    | alu hj hd h3 =>
      intro _
      exact ⟨s.pc, b, by simp [aluPath_eq], canTakeAluPath_of_dField hj hd h3⟩
    | imm => rw [immPath_eq]; exact carryFromAlu_of_trace_append h rfl rfl
    | output => rw [outputPath_eq]; exact carryFromAlu_of_trace_append h rfl rfl
    | unknown => exact carryFromAlu_of_trace_append h rfl (List.append_nil _).symm

/-! ### What is never read -/

theorem jumps_congr {b : Byte} {s s' : State} (h : s.carry = s'.carry) : jumps b s ↔ jumps b s' := by
  rw [jumps, jumps, h]

/-- From states that agree on what is readable a byte takes the same path, to states that agree in the same way, with
the same events. -/
theorem RunsTo.transfer {b : Byte} {s s' t : State} (h : RunsTo b s t) (ha : agreeOnReadable s s') :
    ∃ t' events, RunsTo b s' t' ∧ agreeOnReadable t t' ∧
      t.trace = s.trace ++ events ∧ t'.trace = s'.trace ++ events := by
  obtain ⟨hra, hrb, hpc, hcarry, hstatus, hmem⟩ := ha
  have hjumps : jumps b s ↔ jumps b s' := jumps_congr hcarry
  cases h with
  | jump hj =>
    exact ⟨_, [.retire s.pc b], .jump (hjumps.1 hj), by simp_all [agreeOnReadable, jumpPath_eq, jumpTarget],
      rfl, by rw [hpc]; rfl⟩
  | alu hj hd h3 =>
    exact ⟨_, [.retire s.pc b], .alu (hj ∘ hjumps.2) hd h3, by simp_all [agreeOnReadable, aluPath_eq],
      by rw [aluPath_eq], by rw [aluPath_eq, hpc]⟩
  | imm hj hd h3 =>
    exact ⟨_, [.retire s.pc b], .imm (hj ∘ hjumps.2) hd h3, by simp_all [agreeOnReadable, immPath_eq],
      by rw [immPath_eq], by rw [immPath_eq, hpc]⟩
  | output hj hd =>
    exact ⟨_, [.retire s.pc b, .output s.ra], .output (hj ∘ hjumps.2) hd,
      by simp_all [agreeOnReadable, outputPath_eq], by rw [outputPath_eq], by rw [outputPath_eq, hpc, hra]⟩
  | unknown hj hd =>
    exact ⟨_, [], .unknown (hj ∘ hjumps.2) hd, ⟨hra, hrb, hpc, hcarry, rfl, hmem⟩,
      (List.append_nil _).symm, (List.append_nil _).symm⟩

/-- Settles O48: a halted core stays as it is, and a running one fetches the same byte, which `RunsTo.transfer`
carries over. -/
theorem outputsAreNeverRead : Obligations.OutputsAreNeverRead := by
  intro s s' t ha hstep
  have ⟨_, _, hpc, _, hstatus, hmem⟩ := ha
  obtain ⟨hhalt, rfl⟩ | ⟨hr, b, hb, hrun⟩ := step_inversion hstep
  · exact ⟨s', [], step_of_halted (hstatus ▸ hhalt), ha, (List.append_nil _).symm, (List.append_nil _).symm⟩
  · have hb' : fetch s' = some b := by rw [fetch, ← hmem, ← hpc]; exact hb
    obtain ⟨t', events, hrun', hagree, htrace⟩ := hrun.transfer ha
    exact ⟨t', events, (step_next_iff (hstatus ▸ hr) hb').2 hrun', hagree, htrace⟩

/-! ### The frame of a step, and Carry -/

/-- Settles O32: each path with its own field of the byte. -/
theorem frameOfEveryStep : Obligations.FrameOfEveryStep := by
  intro s t b hr hb hstep
  have hrun := (step_next_iff hr hb).1 hstep
  rw [hrun.mem_eq]
  cases hrun with
  | jump => simp [jumpPath_eq]
  | alu hj =>
    simp +contextual [aluPath_eq, destOf_eq_ra_iff, destOf_eq_rb_iff, destOf_eq_ro_iff, hj]
  | imm hj =>
    simp +contextual [immPath_eq, destOf_eq_ra_iff, destOf_eq_rb_iff, destOf_eq_ro_iff, hj]
  | output hj hd => simp [outputPath_eq, hj, hd]
  | unknown hj hd => simp [raiseDecodeUnknown_eq, hj, hd]

theorem alu_add_carry_iff (a b : Word) : (alu a b false).2 = true ↔ a.toNat + b.toNat > 255 := by
  simp [alu_false, carryOut]

theorem alu_sub_carry_iff (a b : Word) : (alu a b true).2 = true ↔ a.toNat < b.toNat := by
  simp [alu_true, borrow]

/-- Settles O33: the ALU path writes Carry from the ALU, whose operation is S = b[2]; no other path writes it. -/
theorem carryWrittenByAluPathOnly : Obligations.CarryWrittenByAluPathOnly := by
  intro s t b hr hb hstep
  rw [toNat_div_eight, toNat_div_four]
  cases (step_next_iff hr hb).1 hstep with
  | jump hj => simp [jumpPath_eq, hj]
  | alu hj hd h3 =>
    rw [aluPath_eq]
    cases b[2] <;> simp [hj, hd, h3, alu_add_carry_iff, alu_sub_carry_iff]
  | imm _ _ h3 => simp [immPath_eq, h3]
  | output _ hd => simp [outputPath_eq, hd]
  | unknown _ hd => simp [raiseDecodeUnknown_eq, hd]

/-! ### Reset -/

/-- Settles O1: both states are written out by the model. -/
theorem resetHoldsSpecValues : Obligations.ResetHoldsSpecValues := by
  rintro s (rfl | ⟨u, rfl⟩) <;> exact ⟨rfl, rfl, rfl, rfl, rfl, rfl, rfl, rfl, rfl⟩

/-- Settles O41: the core runs, its memory is canonical, and the empty trace justifies RO = 0 and Carry = 0. -/
theorem resetMeetsInvariants : Obligations.ResetMeetsInvariants := by
  have hcore : CoreInv State.reset :=
    (coreInv_iff_of_running rfl).2 ⟨reset_wf, by decide, rfl, rfl⟩
  exact ⟨hcore, fun _ _ h => absurd h List.not_mem_nil, rfl, fun h => absurd h Bool.false_ne_true⟩

end Sys2Proof.Proofs

/-! The statements of 20_memory.md: the trace stays true to the memory, nothing that runs writes the memory, what a
launch loads into it, and what becomes of the lines of a text image. -/

namespace Sys2Proof.Proofs

open Sys2Proof.Machine Sys2Proof.Expected

/-! ### The memory while the core runs -/

/-- A retire event after the byte `b` ran is an old one or the event of `b` at PC (43_execution_engine.md R170). -/
theorem RunsTo.retire_mem_trace {b c : Byte} {pc : Addr} {s t : State} (h : RunsTo b s t)
    (hmem : .retire pc c ∈ t.trace) : .retire pc c ∈ s.trace ∨ (pc = s.pc ∧ c = b) := by
  cases h with
  | jump => simpa [jumpPath_eq] using hmem
  | alu => simpa [aluPath_eq] using hmem
  | imm => simpa [immPath_eq] using hmem
  | output => simpa [outputPath_eq] using hmem
  | unknown => exact .inl hmem

/-- Settles O43: the one new retire event carries the byte that the fetch read at PC, and the memory is unchanged. -/
theorem stepKeepsTraceFaithful : Obligations.StepKeepsTraceFaithful := by
  intro s t h hstep
  obtain ⟨-, rfl⟩ | ⟨-, b, hb, hrun⟩ := step_inversion hstep
  · exact h
  · intro pc c hmem
    rw [hrun.mem_eq]
    obtain hold | ⟨rfl, rfl⟩ := hrun.retire_mem_trace hmem
    · exact h pc c hold
    · exact hb

theorem step_mem_eq {s t : State} (h : step s = .next t) : t.mem = s.mem := by
  obtain ⟨-, rfl⟩ | ⟨-, b, -, hrun⟩ := step_inversion h
  · rfl
  · exact hrun.mem_eq

/-- Everything a clock edge can answer as a next state: a reset, a step, or no change (43_execution_engine.md R169,
70_reset_and_hazards.md R230). -/
theorem clock_cases {p : Pins} {s t : State} (h : clock p s = .next t) :
    (p.rst = true ∧ t = s.applyReset) ∨ (p.rst = false ∧ p.en = true ∧ step s = .next t) ∨
      (p.rst = false ∧ p.en = false ∧ t = s) := by
  unfold clock at h
  split_ifs at h with hrst hen
  · exact .inl ⟨hrst, (Host.Outcome.next.inj h).symm⟩
  · exact .inr (.inl ⟨Bool.eq_false_of_not_eq_true hrst, hen, h⟩)
  · exact .inr (.inr ⟨Bool.eq_false_of_not_eq_true hrst, Bool.eq_false_of_not_eq_true hen,
      (Host.Outcome.next.inj h).symm⟩)

/-- A sequence of edges answers a next state when its first edge does and the others do from there. -/
theorem clocks_cons_cases {p : Pins} {ps : List Pins} {s t : State} (h : clocks (p :: ps) s = .next t) :
    ∃ u, clock p s = .next u ∧ clocks ps u = .next t := by
  unfold clocks at h
  split at h
  · next u hp => exact ⟨u, hp, h⟩
  · cases h
  · cases h

theorem clock_mem_eq {p : Pins} {s t : State} (h : clock p s = .next t) : t.mem = s.mem := by
  obtain ⟨-, rfl⟩ | ⟨-, -, hstep⟩ | ⟨-, -, rfl⟩ := clock_cases h
  · exact applyReset_mem s
  · exact step_mem_eq hstep
  · rfl

theorem clocks_mem_eq {ps : List Pins} {s t : State} (h : clocks ps s = .next t) : t.mem = s.mem := by
  induction ps generalizing s with
  | nil => cases h; rfl
  | cons p ps ih =>
    obtain ⟨u, hp, hps⟩ := clocks_cons_cases h
    rw [ih hps, clock_mem_eq hp]

/-- Settles O47: the whole memory is the same value, by induction on the edges. -/
theorem memoryIsNeverWritten : Obligations.MemoryIsNeverWritten := by
  intro ps s t h
  rw [clocks_mem_eq h]
  exact ⟨rfl, fun _ => rfl⟩

/-! ### The launch -/

/-- The first byte of an image is read at its address, also when it is 0x00 and has no cell. -/
theorem cellsRead_imageCells_cons (b : Byte) (rest : List Byte) (a x : Nat) :
    cellsRead (imageCells a (b :: rest)) x = if x = a then b else cellsRead (imageCells (a + 1) rest) x := by
  rw [imageCells]
  split
  · next hb =>
    split
    · next hx =>
      have habove : ∀ c ∈ imageCells (a + 1) rest, a < c.1 := fun c hc => (mem_imageCells hc).1
      rw [hx, hb, cellsRead_of_lt habove]
    · rfl
  · rw [cellsRead_cons]

/-- Address `a + i` reads byte `i` of an image stored from `a` on, and 0x00 beyond it (20_memory.md R52). -/
theorem cellsRead_imageCells (image : List Byte) (a i : Nat) :
    cellsRead (imageCells a image) (a + i) = image.getD i 0 := by
  induction image generalizing a i with
  | nil => rfl
  | cons b rest ih =>
    rw [cellsRead_imageCells_cons]
    cases i with
    | zero => simp
    | succ i =>
      rw [if_neg (by omega), List.getD_cons_succ, ← ih (a + 1) i]
      congr 1
      omega

theorem launch_of_fits {n : Nat} {image : List Byte} (h1 : 1 ≤ n) (h256 : n ≤ 256) (hfit : image.length ≤ n) :
    launch n image = .next { State.reset with mem := { size := n, cells := imageCells 0 image } } := by
  rw [launch, if_neg (by unfold Config.maxMemSize; omega), if_neg (by omega)]

theorem launch_of_oversize {n : Nat} {image : List Byte} (h1 : 1 ≤ n) (h256 : n ≤ 256) (hover : n < image.length) :
    launch n image = .refused .oversizeImage := by
  rw [launch, if_neg (by unfold Config.maxMemSize; omega), if_pos hover]

theorem launch_of_size {n : Nat} (image : List Byte) (h : n = 0 ∨ 256 < n) :
    launch n image = .refused .memSizeOutOfRange := by
  rw [launch, if_pos (by unfold Config.maxMemSize; omega)]

/-- Settles O49: one equation of `launch` per clause, and the image read back from its cells. -/
theorem launchLoadsImage : Obligations.LaunchLoadsImage := by
  intro n image
  refine ⟨fun ⟨h1, h256, hfit⟩ => ?_, fun ⟨h1, h256, hover⟩ => launch_of_oversize h1 h256 hover,
    launch_of_size image⟩
  refine ⟨_, launch_of_fits h1 h256 hfit, rfl, rfl, rfl, fun a => ?_⟩
  have hread := cellsRead_imageCells image 0 a
  rw [Nat.zero_add] at hread
  rw [Memory.read, hread]

/-! ### The lines of a text image -/

/-- The character of a bit in the text format (20_memory.md R54). -/
def bitChar (x : Bool) : Char := if x then '1' else '0'

@[simp] theorem bitOfChar_bitChar (x : Bool) : bitOfChar (bitChar x) = some x := by
  cases x <;> rfl

theorem bitOfChar_eq_some_iff {c : Char} {x : Bool} : bitOfChar c = some x ↔ c = bitChar x := by
  refine ⟨fun h => ?_, fun h => h ▸ bitOfChar_bitChar x⟩
  unfold bitOfChar at h
  split_ifs at h with h0 h1
  · cases h; exact h0
  · cases h; exact h1

theorem binaryValue_cons (c : Char) (l : List Char) (acc : Nat) :
    binaryValue (c :: l) acc = (bitOfChar c).bind fun x => binaryValue l (2 * acc + x.toNat) := by
  rw [binaryValue]
  cases bitOfChar c with
  | none => rfl
  | some x => cases x <;> rfl

theorem binaryValue_append (l m : List Char) (acc : Nat) :
    binaryValue (l ++ m) acc = (binaryValue l acc).bind (binaryValue m) := by
  induction l generalizing acc with
  | nil => rfl
  | cons c l ih => simp [binaryValue_cons, ih, Option.bind_assoc]

/-- A text is a numeral in base 2 when each of its characters is a bit's. -/
theorem exists_binaryValue_iff (l : List Char) (acc : Nat) :
    (∃ v, binaryValue l acc = some v) ↔ ∀ c ∈ l, c = '0' ∨ c = '1' := by
  induction l generalizing acc with
  | nil => simp [binaryValue]
  | cons c l ih =>
    have hbit : (∃ x, bitOfChar c = some x) ↔ c = '0' ∨ c = '1' := by
      simp [bitOfChar_eq_some_iff, bitChar]
    rw [List.forall_mem_cons, ← hbit, binaryValue_cons]
    constructor
    · rintro ⟨v, hv⟩
      obtain ⟨x, hx, hl⟩ := Option.bind_eq_some_iff.1 hv
      exact ⟨⟨x, hx⟩, (ih _).1 ⟨v, hl⟩⟩
    · rintro ⟨⟨x, hx⟩, hl⟩
      obtain ⟨v, hv⟩ := (ih (2 * acc + x.toNat)).2 hl
      exact ⟨v, by rw [hx, Option.bind_some, hv]⟩

/-- The text of the `k` highest bits of `b`, highest first. -/
def highBits {w : Nat} (b : BitVec w) (k : Nat) : List Char :=
  (List.range k).map fun i => bitChar (b.getLsbD (w - 1 - i))

theorem highBits_succ {w : Nat} (b : BitVec w) (k : Nat) :
    highBits b (k + 1) = highBits b k ++ [bitChar (b.getLsbD (w - 1 - k))] := by
  simp [highBits, List.range_succ]

/-- The highest bits of a word are the numeral of the word shifted down to them. -/
theorem binaryValue_highBits {w : Nat} (b : BitVec w) {k : Nat} (hk : k ≤ w) :
    binaryValue (highBits b k) 0 = some (b.toNat / 2 ^ (w - k)) := by
  induction k with
  | zero => simp [highBits, binaryValue, Nat.div_eq_of_lt b.isLt]
  | succ k ih =>
    have hbit : (b.getLsbD (w - 1 - k)).toNat = b.toNat / 2 ^ (w - 1 - k) % 2 := by
      rw [BitVec.getLsbD, Nat.toNat_testBit]
    have hshift : b.toNat / 2 ^ (w - k) = b.toNat / 2 ^ (w - 1 - k) / 2 := by
      rw [Nat.div_div_eq_div_mul, ← Nat.pow_succ]; congr 2; omega
    have hexp : w - (k + 1) = w - 1 - k := by omega
    rw [highBits_succ, binaryValue_append, ih (by omega), Option.bind_some, binaryValue_cons, bitOfChar_bitChar,
      Option.bind_some, binaryValue, hbit, hshift, hexp, Nat.div_add_mod]

theorem exists_textLine_iff (l : List Char) :
    (∃ b, textLine l = some b) ↔ l.length = 8 ∧ ∀ c ∈ l, c = '0' ∨ c = '1' := by
  rw [← exists_binaryValue_iff l 0]
  unfold textLine
  split_ifs with h8 <;> simp [h8]

theorem textLine_highBits (b : Byte) : textLine (highBits b 8) = some b := by
  have hlen : (highBits b 8).length = 8 := by simp [highBits]
  rw [textLine, if_pos hlen, binaryValue_highBits b (le_refl 8)]
  simp

theorem loadLines_image (n : Nat) (lines : List (List Char)) :
    (loadLines n lines).image = lines.filterMap textLine := by
  induction lines generalizing n with
  | nil => rfl
  | cons l rest ih => cases h : textLine l <;> simp [loadLines, h, ih]

/-- The LoadErrors are the numbers of the lines that are no byte (20_memory.md R55). -/
theorem loadLines_loadErrors (n : Nat) (lines : List (List Char)) :
    (loadLines n lines).loadErrors = ((lines.zipIdx n).filter fun p => textLine p.1 = none).map Prod.snd := by
  induction lines generalizing n with
  | nil => rfl
  | cons l rest ih => cases h : textLine l <;> simp [loadLines, h, ih]

theorem add_mem_loadErrors_iff (n k : Nat) (lines : List (List Char)) :
    n + k ∈ (loadLines n lines).loadErrors ↔ ∃ l, lines[k]? = some l ∧ textLine l = none := by
  simp [loadLines_loadErrors, List.mk_mem_zipIdx_iff_le_and_getElem?_sub]

/-- Settles O52: which lines are bytes, the numeral of a byte, and the lines one by one. -/
theorem textImageLines : Obligations.TextImageLines :=
  ⟨exists_textLine_iff, textLine_highBits,
    fun lines n => ⟨loadLines_image n lines, fun k => add_mem_loadErrors_iff n k lines⟩⟩

end Sys2Proof.Proofs

/-! The statements of 30_encoding.md: encoding and decoding are inverse, what the ranges and the fields of a byte mean,
what its ignored bits can change, and the assembler against the disassembly. -/

namespace Sys2Proof.Proofs

open Sys2Proof.Machine Sys2Proof.Expected

/-! ### Encoding and decoding (30_encoding.md R60, R69) -/

/-- The converse of `encodeByte_decodeByte`: every field is read back from where the row puts it. -/
theorem decodeByte_encodeByte (i : Instr) : decodeByte (encodeByte i) = i := by
  cases i with
  | j x n => revert x n; decide
  | jc f n => revert f n; decide
  | raAdd x => revert x; decide
  | raSub x => revert x; decide
  | raImm n => revert n; decide
  | rbAdd x => revert x; decide
  | rbSub x => revert x; decide
  | rbImm n => revert n; decide
  | roRa x => revert x; decide
  | unknown x => revert x; decide

theorem decode_cons (b : Byte) (rest : List Byte) : decode (b :: rest) = .ok (decodeByte b, rest) := rfl

/-- Settles O7: an instruction is one byte, which decodes to it. -/
theorem decodeOfEncode : Obligations.DecodeOfEncode := by
  intro i rest
  rw [encode, List.singleton_append, decode_cons, decodeByte_encodeByte]

/-- Settles O8: the decoder reads the first byte, if there is one, and the byte is readable off the instruction. -/
theorem decodedBytesAreEncoded : Obligations.DecodedBytesAreEncoded := by
  constructor
  · intro bytes i rest h
    cases bytes with
    | nil => cases h
    | cons b bytes =>
      cases h
      rw [encode, encodeByte_decodeByte, List.singleton_append]
  · intro bytes
    cases bytes with
    | nil => exact ⟨fun _ => rfl, fun _ => ⟨.noByte, rfl⟩⟩
    | cons b bytes => simp [decode_cons]

/-! ### The ranges of the opcode map (30_encoding.md R69) -/

/-- The first and the last byte value of an instruction's row. -/
def opcodeRange : Instr → Nat × Nat
  | .j _ _ => (0x80, 0xFF)
  | .jc _ _ => (0x40, 0x7F)
  | .raAdd _ => (0x00, 0x03)
  | .raSub _ => (0x04, 0x07)
  | .raImm _ => (0x08, 0x0F)
  | .rbAdd _ => (0x10, 0x13)
  | .rbSub _ => (0x14, 0x17)
  | .rbImm _ => (0x18, 0x1F)
  | .roRa _ => (0x20, 0x2F)
  | .unknown _ => (0x30, 0x3F)

theorem decodeByte_range (b : Byte) :
    (opcodeRange (decodeByte b)).1 ≤ b.toNat ∧ b.toNat ≤ (opcodeRange (decodeByte b)).2 := by
  revert b; decide

/-- Settles O9: the byte lies in the range of the row it decodes to, and the ten ranges are disjoint. -/
theorem opcodeMapByRange : Obligations.OpcodeMapByRange := by
  intro b
  have hrange := decodeByte_range b
  cases hi : decodeByte b <;> simp [hi, opcodeRange] at hrange ⊢ <;> omega

/-! ### The descriptor of a byte (30_encoding.md R68) -/

/-- Settles O10: each field of the descriptor is a bit or a bit field of the byte, read as a number. -/
theorem descriptorOfEveryByte : Obligations.DescriptorOfEveryByte := by
  intro b
  have hjump : b.toNat / 128 % 2 = b[7].toNat := toNat_div_mod_two b 7 (by decide)
  have hcond : b.toNat / 64 % 2 = b[6].toNat := toNat_div_mod_two b 6 (by decide)
  refine ⟨destOf_eq b, ?_, ?_, ?_, ?_, ?_⟩
  · rw [toNat_div_eight, toNat_div_four, describe, classOf_eq]
    cases b[3] <;> cases b[2] <;> rfl
  · simp [describe]
  · simp [describe, BitVec.extractLsb'_toNat]
  · have hlt : b.toNat / 128 < 2 := by omega
    rw [Nat.mod_eq_of_lt hlt] at hjump
    rw [hjump]
    simp [describe]
  · rw [hcond]
    simp [describe]

/-! ### Ignored bits (30_encoding.md R70) -/

/-- A path puts the byte it is given nowhere but into the record of the step. -/
def OnlyRecordsByte (s : State) (path : Byte → State) : Prop := ∀ b c, sameButByte b c s (path b) (path c)

theorem jumpPath_onlyRecordsByte (n : Imm) (s : State) : OnlyRecordsByte s (jumpPath · n s) :=
  fun _ _ => ⟨rfl, .inr ⟨rfl, rfl, [], rfl, rfl⟩⟩

theorem aluPath_onlyRecordsByte (d : Dest) (subtract : Bool) (s : State) :
    OnlyRecordsByte s (aluPath · d subtract s) := by
  intro b c
  simp only [aluPath_eq]
  exact ⟨rfl, .inr ⟨rfl, rfl, [], rfl, rfl⟩⟩

theorem outputPath_onlyRecordsByte (s : State) : OnlyRecordsByte s (outputPath · s) := by
  intro b c
  simp only [outputPath_eq]
  exact ⟨rfl, .inr ⟨rfl, rfl, [s.ra], rfl, rfl⟩⟩

theorem raiseDecodeUnknown_onlyRecordsByte (s : State) : OnlyRecordsByte s (raiseDecodeUnknown · s) :=
  fun _ _ => ⟨rfl, .inl ⟨rfl, rfl, rfl, rfl, rfl⟩⟩

/-- Alike but for the recorded byte: the outputs are the same, the retire events stand at the same PCs, and ErrByte
can differ after an error halt alone. -/
theorem observed_of_sameButByte {b c : Byte} {s t u : State} (h : sameButByte b c s t u) :
    outputs t = outputs u ∧ (retires t).map Prod.fst = (retires u).map Prod.fst ∧
      (t.status ≠ .haltedError → t.errByte = u.errByte) := by
  obtain ⟨-, ⟨hstatus, ht, hu, -, -⟩ | ⟨ht, hu, outs, htrace, hutrace⟩⟩ := h
  · simp [outputs, retires, ht, hu, hstatus]
  · simp [outputs, retires, ht, hu, htrace, hutrace, List.filterMap_cons]

/-- The fields of a JC byte that its fall-through reads (30_encoding.md R61 to R65): f = b[5:3] holds D and Sreg. -/
theorem fields_jc (f : BitVec 3) (n : Imm) : dField (encodeByte (.jc f n)) = f.toNat / 2 ∧
    (encodeByte (.jc f n))[3] = f[0] ∧ (encodeByte (.jc f n))[2] = n[2] := by
  revert f n; decide

/-- A not-taken JC runs the destination path of its byte (42_control_transfer.md R142, decision D7). -/
theorem exec_jc_of_carry {s : State} (h : s.carry = true) (f : BitVec 3) (n : Imm) :
    exec (.jc f n) s = .next (destinationPath (encodeByte (.jc f n)) s) :=
  if_pos h

theorem exec_jc_alu {s : State} (h : s.carry = true) {f : BitVec 3} (hf : f = 0 ∨ f = 2) (n : Imm) :
    exec (.jc f n) s = .next (aluPath (encodeByte (.jc f n)) (if f = 0 then .ra else .rb) n[2] s) := by
  obtain ⟨hd, h3, h2⟩ := fields_jc f n
  rw [exec_jc_of_carry h]
  obtain rfl | rfl := hf
  · rw [destinationPath_of_alu s (by rw [hd]; decide) h3, h2, (destOf_eq_ra_iff _).2 hd]; rfl
  · rw [destinationPath_of_alu s (by rw [hd]; decide) h3, h2, (destOf_eq_rb_iff _).2 hd]; rfl

theorem exec_jc_output {s : State} (h : s.carry = true) {f : BitVec 3} (hf : f = 4 ∨ f = 5) (n : Imm) :
    exec (.jc f n) s = .next (outputPath (encodeByte (.jc f n)) s) := by
  obtain ⟨hd, -, -⟩ := fields_jc f n
  rw [exec_jc_of_carry h, destinationPath_of_output s (by obtain rfl | rfl := hf <;> exact hd)]

theorem exec_jc_unknown {s : State} (h : s.carry = true) {f : BitVec 3} (hf : f = 6 ∨ f = 7) (n : Imm) :
    exec (.jc f n) s = .next (raiseDecodeUnknown (encodeByte (.jc f n)) s) := by
  obtain ⟨hd, -, -⟩ := fields_jc f n
  rw [exec_jc_of_carry h, destinationPath_of_unknown s (by obtain rfl | rfl := hf <;> exact hd)]

/-- Two instructions that take one path, each with its own byte, are alike in all but the recorded byte. -/
theorem alike_of_path {i k : Instr} {s : State} {path : Byte → State} (hpath : OnlyRecordsByte s path)
    (hi : exec i s = .next (path (encodeByte i))) (hk : exec k s = .next (path (encodeByte k))) :
    ∃ t u, exec i s = .next t ∧ exec k s = .next u ∧ sameButByte (encodeByte i) (encodeByte k) s t u ∧
      outputs t = outputs u ∧ (retires t).map Prod.fst = (retires u).map Prod.fst ∧
      (t.status ≠ .haltedError → t.errByte = u.errByte) :=
  ⟨_, _, hi, hk, hpath _ _, observed_of_sameButByte (hpath _ _)⟩

/-- Settles O12: in each case the two instructions take one path, which only records the byte. -/
theorem ignoredBitsChangeNothingElse : Obligations.IgnoredBitsChangeNothingElse := by
  rintro i k s (⟨x, y, n, rfl, rfl⟩ | ⟨x, y, rfl, rfl⟩ | ⟨x, y, rfl, rfl⟩ | ⟨x, y, rfl, rfl⟩ | ⟨x, y, rfl, rfl⟩ |
    ⟨x, y, rfl, rfl⟩ | ⟨x, y, rfl, rfl⟩ | ⟨hc, f, n, m, hf, hnm, rfl, rfl⟩ | ⟨hc, f, g, n, m, hf, hg, rfl, rfl⟩ |
    ⟨hc, f, g, n, m, hf, hg, rfl, rfl⟩)
  · exact alike_of_path (jumpPath_onlyRecordsByte n s) rfl rfl
  · exact alike_of_path (aluPath_onlyRecordsByte .ra false s) rfl rfl
  · exact alike_of_path (aluPath_onlyRecordsByte .ra true s) rfl rfl
  · exact alike_of_path (aluPath_onlyRecordsByte .rb false s) rfl rfl
  · exact alike_of_path (aluPath_onlyRecordsByte .rb true s) rfl rfl
  · exact alike_of_path (outputPath_onlyRecordsByte s) rfl rfl
  · exact alike_of_path (raiseDecodeUnknown_onlyRecordsByte s) rfl rfl
  · exact alike_of_path (aluPath_onlyRecordsByte _ _ s) (exec_jc_alu hc hf n) (hnm ▸ exec_jc_alu hc hf m)
  · exact alike_of_path (outputPath_onlyRecordsByte s) (exec_jc_output hc hf n) (exec_jc_output hc hg m)
  · exact alike_of_path (raiseDecodeUnknown_onlyRecordsByte s) (exec_jc_unknown hc hf n) (exec_jc_unknown hc hg m)

end Sys2Proof.Proofs

/-! The statements of 30_encoding.md about the assembler: what a literal is, what an accepted line spells, the
disassembly, and the diagnostics. -/

namespace Sys2Proof.Proofs

open Sys2Proof.Machine Sys2Proof.Expected

/-! ### Literals (30_encoding.md R78) -/

theorem decimalValue_cons (c : Char) (l : List Char) (acc : Nat) :
    decimalValue (c :: l) acc = (digitValue c).bind fun d => decimalValue l (10 * acc + d) := by
  rw [decimalValue]
  cases digitValue c <;> rfl

theorem digitValue_eq_some {c : Char} {d : Nat} (h : digitValue c = some d) :
    c = Char.ofNat ('0'.toNat + d) := by
  unfold digitValue at h
  split_ifs at h with hc
  cases h
  rw [Nat.add_sub_cancel' hc.1, Char.ofNat_toNat]

/-- Each digit more makes the value at least ten times as large. -/
theorem le_of_decimalValue {l : List Char} {acc v : Nat} (h : decimalValue l acc = some v) :
    acc * 10 ^ l.length ≤ v := by
  induction l generalizing acc with
  | nil => cases h; simp
  | cons c l ih =>
    rw [decimalValue_cons] at h
    obtain ⟨d, -, hl⟩ := Option.bind_eq_some_iff.1 h
    calc acc * 10 ^ (c :: l).length = 10 * acc * 10 ^ l.length := by rw [List.length_cons, pow_succ]; ring
      _ ≤ (10 * acc + d) * 10 ^ l.length := Nat.mul_le_mul_right _ (Nat.le_add_right _ _)
      _ ≤ v := ih hl

theorem decimalValue_replicate_zero (k : Nat) (l : List Char) :
    decimalValue (List.replicate k '0' ++ l) 0 = decimalValue l 0 := by
  induction k with
  | zero => rfl
  | succ k ih => exact ih

/-- A row of digits whose value is below ten has one digit that counts, the last. -/
theorem eq_of_decimalValue_lt_ten {l : List Char} {v : Nat} (hne : l ≠ []) (h : decimalValue l 0 = some v)
    (hv : v < 10) : ∃ k, l = List.replicate k '0' ++ [Char.ofNat ('0'.toNat + v)] := by
  induction l with
  | nil => exact absurd rfl hne
  | cons c l ih =>
    rw [decimalValue_cons] at h
    obtain ⟨d, hd, hl⟩ := Option.bind_eq_some_iff.1 h
    rw [Nat.mul_zero, Nat.zero_add] at hl
    obtain rfl := digitValue_eq_some hd
    cases l with
    | nil => cases hl; exact ⟨0, rfl⟩
    | cons c' l =>
      have hd0 : d = 0 := by
        have hle := le_of_decimalValue hl
        have hten : 10 ≤ 10 ^ (c' :: l).length := Nat.le_self_pow (by simp) 10
        have hmul := Nat.mul_le_mul_left d hten
        omega
      subst hd0
      obtain ⟨k, hk⟩ := ih (by simp) hl
      exact ⟨k + 1, by rw [hk]; rfl⟩

theorem decimalValue_dec (n : Imm) : decimalValue (dec n) 0 = some n.toNat := by
  revert n; decide

theorem literal_eq_some_iff {l : List Char} {n : Imm} :
    literal l = some n ↔ l ≠ [] ∧ decimalValue l 0 = some n.toNat := by
  cases l with
  | nil => simp [literal]
  | cons c l =>
    have hn := n.isLt
    cases h : decimalValue (c :: l) 0 with
    | none => simp [literal, h]
    | some v =>
      simp only [literal, h]
      split
      · next hv =>
        have hiff : BitVec.ofNat 3 v = n ↔ v = n.toNat := by
          rw [← BitVec.toNat_inj, BitVec.toNat_ofNat, Nat.mod_eq_of_lt hv]
        simpa using hiff
      · simp; omega

theorem literal_replicate_dec (k : Nat) (n : Imm) : literal (List.replicate k '0' ++ dec n) = some n :=
  literal_eq_some_iff.2 ⟨by simp [dec], by rw [decimalValue_replicate_zero, decimalValue_dec]⟩

theorem eq_of_literal {l : List Char} {n : Imm} (h : literal l = some n) :
    ∃ k, l = List.replicate k '0' ++ dec n := by
  obtain ⟨hne, hval⟩ := literal_eq_some_iff.1 h
  exact eq_of_decimalValue_lt_ten hne hval (by omega)

/-- Settles O56: leading zeros add nothing to the value, and a value below ten leaves room for no other digit. -/
theorem literalsAreRangeChecked : Obligations.LiteralsAreRangeChecked :=
  ⟨literal_replicate_dec, fun _ _ => eq_of_literal⟩

/-! ### The spelling of a form (30_encoding.md R76) -/

/-- The text of a mnemonic. -/
def mnemonicText : Mnemonic → List Char
  | .ra => ['R', 'A']
  | .rb => ['R', 'B']
  | .ro => ['R', 'O']
  | .j => ['J']
  | .jc => ['J', 'C']

/-- The text of an operand, a literal in one digit. -/
def operandText : Operand → List Char
  | .raPlusRb => ['R', 'A', '+', 'R', 'B']
  | .raMinusRb => ['R', 'A', '-', 'R', 'B']
  | .ra => ['R', 'A']
  | .lit n => dec n

theorem mnemonicOf_eq_some_iff {l : List Char} {m : Mnemonic} : mnemonicOf l = some m ↔ l = mnemonicText m := by
  constructor
  · intro h
    unfold mnemonicOf at h
    split_ifs at h with hl hl hl hl hl <;> cases h <;> exact hl
  · rintro rfl
    cases m <;> rfl

theorem operandOf_operandText (o : Operand) : operandOf (operandText o) = some o := by
  cases o with
  | raPlusRb => rfl
  | raMinusRb => rfl
  | ra => rfl
  | lit n =>
    have hlit : literal (dec n) = some n := literal_replicate_dec 0 n
    have hword : ∀ c c' l, dec n ≠ c :: c' :: l := by simp [dec]
    simp [operandOf, operandText, hword, hlit]

/-- What is read as an operand is its text, but for leading zeros of a literal. -/
theorem eq_of_operandOf {l : List Char} {o : Operand} (h : operandOf l = some o) :
    l = operandText o ∨ ∃ k n, o = .lit n ∧ l = List.replicate k '0' ++ dec n := by
  unfold operandOf at h
  split_ifs at h with hl hl hl
  · cases h; exact .inl hl
  · cases h; exact .inl hl
  · cases h; exact .inl hl
  · obtain ⟨n, hn, rfl⟩ := Option.map_eq_some_iff.1 h
    obtain ⟨k, hk⟩ := eq_of_literal hn
    exact .inr ⟨k, n, rfl, hk⟩

theorem splitEquals_append {m : List Char} (h : '=' ∉ m) (o : List Char) :
    splitEquals (m ++ '=' :: o) = some (m, o) := by
  induction m with
  | nil => rfl
  | cons c m ih =>
    obtain ⟨hc, hm⟩ := not_or.1 (List.mem_cons.not.1 h)
    simp [splitEquals, Ne.symm hc, ih hm]

theorem eq_of_splitEquals {l m o : List Char} (h : splitEquals l = some (m, o)) : l = m ++ '=' :: o := by
  induction l generalizing m with
  | nil => cases h
  | cons c l ih =>
    unfold splitEquals at h
    split_ifs at h with hc
    · cases h; rw [hc]; rfl
    · obtain ⟨⟨m', o'⟩, hl, heq⟩ := Option.map_eq_some_iff.1 h
      cases heq
      rw [ih hl]; rfl

/-- The line that spells a mnemonic and an operand, without blanks. -/
def spelling (m : Mnemonic) (o : Operand) : List Char := mnemonicText m ++ '=' :: operandText o

theorem parseLine_spelling (m : Mnemonic) (o : Operand) : parseLine (spelling m o) = formOf m o := by
  have hm : '=' ∉ mnemonicText m := by cases m <;> decide
  rw [parseLine, spelling, splitEquals_append hm]
  simp only [mnemonicOf_eq_some_iff.2 rfl, operandOf_operandText]

/-- What a parsed line is: the text of a mnemonic, '=', and a text that reads as an operand. -/
theorem parseLine_cases {l : List Char} {i : Instr} (h : parseLine l = some i) :
    ∃ m o text, l = mnemonicText m ++ '=' :: text ∧ operandOf text = some o ∧ formOf m o = some i := by
  unfold parseLine at h
  split at h
  · cases h
  · next _ mtext text hsplit =>
    split at h
    · next m o hm ho =>
      exact ⟨m, o, text, mnemonicOf_eq_some_iff.1 hm ▸ eq_of_splitEquals hsplit, ho, h⟩
    · cases h

/-! ### One line (30_encoding.md R74, R75) -/

theorem parseLine_of_accepted {l : List Char} {i : Instr} (h : assembleLine l = .accepted i) :
    parseLine (deleteBlanks l) = some i := by
  unfold assembleLine at h
  split at h
  · cases h
  · next c rest hl =>
    rw [hl]
    split_ifs at h
    split at h
    · next hp => cases h; exact hp
    · cases h

theorem assembleLine_of_parseLine {l : List Char} {c : Char} {i : Instr} (hl : (deleteBlanks l).head? = some c)
    (hc : ¬(c = '#' ∨ c = ';')) (hp : parseLine (deleteBlanks l) = some i) : assembleLine l = .accepted i := by
  unfold assembleLine
  split
  · next h => simp [h] at hl
  · next h =>
    rw [h] at hl hp
    cases hl
    rw [if_neg hc, hp]

theorem deleteBlanks_dec (n : Imm) : deleteBlanks (dec n) = dec n := by
  revert n; decide

theorem deleteBlanks_spelling (m : Mnemonic) (o : Operand) : deleteBlanks (spelling m o) = spelling m o := by
  have hm : deleteBlanks (mnemonicText m) = mnemonicText m := by cases m <;> rfl
  have ho : deleteBlanks ('=' :: operandText o) = '=' :: operandText o := by
    cases o with
    | raPlusRb => rfl
    | raMinusRb => rfl
    | ra => rfl
    | lit n => exact congrArg ('=' :: ·) (deleteBlanks_dec n)
  rw [spelling, deleteBlanks, List.filter_append, ← deleteBlanks, ← deleteBlanks, hm, ho]

theorem assembleLine_spelling {m : Mnemonic} {o : Operand} {i : Instr} (h : formOf m o = some i) :
    assembleLine (spelling m o) = .accepted i := by
  have hhead : ∃ c, (mnemonicText m).head? = some c ∧ ¬(c = '#' ∨ c = ';') := by
    cases m <;> exact ⟨_, rfl, by decide⟩
  obtain ⟨c, hhead, hc⟩ := hhead
  refine assembleLine_of_parseLine (c := c) ?_ hc ?_
  · rw [deleteBlanks_spelling, spelling, List.head?_append, hhead]; rfl
  · rw [deleteBlanks_spelling, parseLine_spelling, h]

/-! ### The disassembly (30_encoding.md R82) -/

theorem dis_encodeByte_j (x : BitVec 4) (n : Imm) : dis (encodeByte (.j x n)) = ['J', '='] ++ dec n := by
  obtain ⟨hj, hn⟩ := describe_j x n
  simp [dis, hj, hn]

theorem dis_encodeByte_jc (f : BitVec 3) (n : Imm) : dis (encodeByte (.jc f n)) = ['J', 'C', '='] ++ dec n := by
  obtain ⟨hj, hc, hn⟩ := describe_jc f n
  simp [dis, hj, hc, hn]

/-- The disassembly spells the form that names the instruction. -/
theorem dis_of_formOf {m : Mnemonic} {o : Operand} {i : Instr} (h : formOf m o = some i) :
    dis (encodeByte i) = spelling m o := by
  unfold formOf at h
  split at h <;> cases h
  · rw [dis, describe_raAdd]; rfl
  · rw [dis, describe_raSub]; rfl
  · rw [dis, describe_raImm]; rfl
  · rw [dis, describe_rbAdd]; rfl
  · rw [dis, describe_rbSub]; rfl
  · rw [dis, describe_rbImm]; rfl
  · rw [dis, describe_roRa]; rfl
  · exact dis_encodeByte_j 0 _
  · exact dis_encodeByte_jc 0 _

theorem canonical_of_formOf {m : Mnemonic} {o : Operand} {i : Instr} (h : formOf m o = some i) :
    i.canonical = true := by
  unfold formOf at h
  split at h <;> cases h <;> rfl

/-- Every canonical instruction has a form. -/
theorem exists_formOf_of_canonical {i : Instr} (h : i.canonical = true) : ∃ m o, formOf m o = some i := by
  cases i with
  | j x n => obtain rfl := eq_of_beq h; exact ⟨.j, .lit n, rfl⟩
  | jc f n => obtain rfl := eq_of_beq h; exact ⟨.jc, .lit n, rfl⟩
  | raAdd x => obtain rfl := eq_of_beq h; exact ⟨.ra, .raPlusRb, rfl⟩
  | raSub x => obtain rfl := eq_of_beq h; exact ⟨.ra, .raMinusRb, rfl⟩
  | raImm n => exact ⟨.ra, .lit n, rfl⟩
  | rbAdd x => obtain rfl := eq_of_beq h; exact ⟨.rb, .raPlusRb, rfl⟩
  | rbSub x => obtain rfl := eq_of_beq h; exact ⟨.rb, .raMinusRb, rfl⟩
  | rbImm n => exact ⟨.rb, .lit n, rfl⟩
  | roRa x => obtain rfl := eq_of_beq h; exact ⟨.ro, .ra, rfl⟩
  | unknown x => cases h

/-- Settles O55: the disassembly of a canonical byte spells a form of its instruction. -/
theorem assembleOfDisassemble : Obligations.AssembleOfDisassemble := by
  intro i hi
  obtain ⟨m, o, hform⟩ := exists_formOf_of_canonical hi
  rw [dis_of_formOf hform]
  exact assembleLine_spelling hform

/-- Settles O54: an accepted line is a form's spelling, up to the leading zeros of a literal. -/
theorem acceptedLinesAreCanonical : Obligations.AcceptedLinesAreCanonical := by
  intro l i h
  obtain ⟨m, o, text, hl, ho, hform⟩ := parseLine_cases (parseLine_of_accepted h)
  refine ⟨canonical_of_formOf hform, decodeOfEncode i [], ?_⟩
  rw [hl, dis_of_formOf hform]
  obtain rfl | ⟨zeros, n, rfl, rfl⟩ := eq_of_operandOf ho
  · exact .inl rfl
  · exact .inr ⟨zeros, mnemonicText m, n, rfl, rfl⟩

/-! ### The table of forms (30_encoding.md R77) -/

/-- A row of the table: a spelling, with the byte and the descriptor of the instruction it names. -/
theorem row_of_formOf {m : Mnemonic} {o : Operand} {i : Instr} {b : Byte} {d : Descriptor}
    (hform : formOf m o = some i) (hb : encodeByte i = b) (hd : describe (encodeByte i) = d) :
    assembleLine (spelling m o) = .accepted i ∧ encodeByte i = b ∧ describe b = d :=
  ⟨assembleLine_spelling hform, hb, hb ▸ hd⟩

/-- The byte of a canonical instruction with an immediate: the row's first byte plus the immediate. -/
theorem encodeByte_imm (n : Imm) :
    encodeByte (.raImm n) = 0x08 + n.setWidth 8 ∧ encodeByte (.rbImm n) = 0x18 + n.setWidth 8 ∧
      encodeByte (.j 0 n) = 0x80 + n.setWidth 8 ∧ encodeByte (.jc 0 n) = 0x40 + n.setWidth 8 := by
  revert n; decide

/-- The whole descriptor of a canonical jump: its unused non-jump path is the ALU's, with S = n[2]. -/
theorem describe_canonical_jump (n : Imm) :
    describe (encodeByte (.j 0 n)) = ⟨if n.toNat ≤ 3 then .aluAdd else .aluSub, .ra, false, n, true, false⟩ ∧
      describe (encodeByte (.jc 0 n)) = ⟨if n.toNat ≤ 3 then .aluAdd else .aluSub, .ra, false, n, false, true⟩ := by
  revert n; decide

/-- Settles O53: the five forms without an immediate, and the four with one. -/
theorem assemblerForms : Obligations.AssemblerForms := by
  refine ⟨row_of_formOf (m := .ra) (o := .raPlusRb) rfl rfl (describe_raAdd 0),
    row_of_formOf (m := .ra) (o := .raMinusRb) rfl rfl (describe_raSub 0),
    row_of_formOf (m := .rb) (o := .raPlusRb) rfl rfl (describe_rbAdd 0),
    row_of_formOf (m := .rb) (o := .raMinusRb) rfl rfl (describe_rbSub 0),
    row_of_formOf (m := .ro) (o := .ra) rfl rfl (describe_roRa 0), fun n => ?_⟩
  obtain ⟨hra, hrb, hj, hjc⟩ := encodeByte_imm n
  obtain ⟨hdj, hdjc⟩ := describe_canonical_jump n
  exact ⟨row_of_formOf (m := .ra) (o := .lit n) rfl hra (describe_raImm n),
    row_of_formOf (m := .rb) (o := .lit n) rfl hrb (describe_rbImm n),
    row_of_formOf (m := .j) (o := .lit n) rfl hj hdj, row_of_formOf (m := .jc) (o := .lit n) rfl hjc hdjc⟩

/-! ### All lines (30_encoding.md R80) -/

/-- The byte of a line, if it is accepted. -/
def emittedByte : LineResult → Option Byte
  | .accepted i => some (encodeByte i)
  | .ignored => none
  | .syntaxError => none

theorem assembleLines_image (n : Nat) (lines : List (List Char)) :
    (assembleLines n lines).image = lines.filterMap fun l => emittedByte (assembleLine l) := by
  induction lines generalizing n with
  | nil => rfl
  | cons l rest ih => cases h : assembleLine l <;> simp [assembleLines, emittedByte, h, ih]

/-- The diagnostics are the rejected lines among the numbered ones. -/
theorem assembleLines_diagnostics (n : Nat) (lines : List (List Char)) :
    (assembleLines n lines).diagnostics =
      ((lines.zipIdx n).filter fun p => assembleLine p.1 = .syntaxError).map Prod.swap := by
  induction lines generalizing n with
  | nil => rfl
  | cons l rest ih => cases h : assembleLine l <;> simp [assembleLines, h, ih]

theorem add_mem_diagnostics_iff (n k : Nat) (l : List Char) (lines : List (List Char)) :
    (n + k, l) ∈ (assembleLines n lines).diagnostics ↔
      lines[k]? = some l ∧ assembleLine l = .syntaxError := by
  simp [assembleLines_diagnostics, List.mk_mem_zipIdx_iff_le_and_getElem?_sub]

/-- Settles O57: the image and the diagnostics line by line. -/
theorem assemblerCollectsErrors : Obligations.AssemblerCollectsErrors :=
  fun lines n => ⟨assembleLines_image n lines, fun k l => add_mem_diagnostics_iff n k l lines⟩

end Sys2Proof.Proofs

/-! The statements of 40_alu.md: the result and the carry of the ALU, the four arithmetic instructions with the
not-taken JC bytes that fall through to them, and the comparison that a JC makes of the operands of a subtraction. -/

namespace Sys2Proof.Proofs

open Sys2Proof.Machine Sys2Proof.Expected

/-! ### The ALU (40_alu.md R100, R101) -/

/-- The difference of R100 as an exact integer, narrowed once. -/
theorem alu_sub_toNat {w : Nat} (a b : BitVec w) :
    ((alu a b true).1.toNat : Int) = ((a.toNat : Int) - (b.toNat : Int)) % (2 ^ w : Int) := by
  have hnonneg : 0 ≤ ((a.toNat : Int) - (b.toNat : Int)) % ((2 ^ w : Nat) : Int) :=
    Int.emod_nonneg _ (by positivity)
  rw [alu, if_pos rfl, BitVec.toNat_ofInt, Int.toNat_of_nonneg hnonneg, Nat.cast_pow, Nat.cast_ofNat]

/-- Settles O13: each operation's bit vector read back as a number, and each flag as its comparison. -/
theorem aluResultAndCarry : Obligations.AluResultAndCarry := by
  intro w a b
  refine ⟨?_, ?_, alu_sub_toNat a b, ?_⟩
  · rw [alu_false, BitVec.toNat_add]
  · rw [alu_false, carryOut, decide_eq_true_iff]
  · rw [alu_true, borrow, decide_eq_true_iff]

/-- Nine bits hold the exact sum of two bytes. -/
theorem nineBitSum_toNat (a b : Word) : (a.setWidth 9 + b.setWidth 9).toNat = a.toNat + b.toNat := by
  bv_omega

theorem carryOut_eq_bit_eight (a b : Word) : carryOut a b = (a.setWidth 9 + b.setWidth 9).getLsbD 8 := by
  have hlt : a.toNat + b.toNat < 2 ^ (8 + 1) := by omega
  rw [BitVec.getLsbD, nineBitSum_toNat, Nat.testBit_eq_decide_div_mod_eq, carryOut, decide_eq_decide]
  omega

theorem alu_add_comm {w : Nat} (a b : BitVec w) : alu a b false = alu b a false := by
  rw [alu_false, alu_false, BitVec.add_comm, carryOut, carryOut, Nat.add_comm]

/-- Settles O14: the exact sum fits nine bits, so bit 8 is the carry and dropping it wraps. -/
theorem additionIsNineBitSum : Obligations.AdditionIsNineBitSum := by
  intro a b
  refine ⟨?_, ?_, alu_add_comm a b⟩
  · rw [alu_false, BitVec.setWidth_add _ _ (by decide)]
    simp
  · rw [alu_false, carryOut_eq_bit_eight]

/-! ### The ALU path in the words of the statements -/

/-- An addition to `d` advances and writes the sum and the carry (40_alu.md R106, R108). -/
theorem aluPath_add (b : Byte) (d : Dest) (s : State) :
    aluPath b d false s = { writeDest d (s.ra + s.rb) (advanced b s) with
      carry := decide (s.ra.toNat + s.rb.toNat > 255) } := by
  rw [aluPath_eq, alu_false, writeDest_eq]; rfl

/-- A subtraction to `d` advances and writes the difference RA - RB and the borrow (40_alu.md R107, R109). -/
theorem aluPath_sub (b : Byte) (d : Dest) (s : State) :
    aluPath b d true s = { writeDest d (s.ra - s.rb) (advanced b s) with
      carry := decide (s.ra.toNat < s.rb.toNat) } := by
  rw [aluPath_eq, alu_true, writeDest_eq]; rfl

/-- S = b[2] is the top bit of the immediate field, which tells 4 to 7 from 0 to 3. -/
theorem imm_bit_two (n : Imm) : n[2] = decide (4 ≤ n.toNat) := by
  revert n; decide

theorem encodeByte_jc_toNat (f : BitVec 3) (n : Imm) :
    (encodeByte (.jc f n)).toNat = 0x40 + 8 * f.toNat + n.toNat := by
  revert f n; decide

/-- A not-taken JC whose byte has S = 0 adds. -/
theorem exec_jc_add {s : State} (h : s.carry = true) {f : BitVec 3} (hf : f = 0 ∨ f = 2) {n : Imm}
    (hn : n.toNat < 4) :
    exec (.jc f n) s = .next (aluPath (encodeByte (.jc f n)) (if f = 0 then .ra else .rb) false s) := by
  rw [exec_jc_alu h hf, imm_bit_two, decide_eq_false (Nat.not_le.2 hn)]

/-- A not-taken JC whose byte has S = 1 subtracts. -/
theorem exec_jc_sub {s : State} (h : s.carry = true) {f : BitVec 3} (hf : f = 0 ∨ f = 2) {n : Imm}
    (hn : 4 ≤ n.toNat) :
    exec (.jc f n) s = .next (aluPath (encodeByte (.jc f n)) (if f = 0 then .ra else .rb) true s) := by
  rw [exec_jc_alu h hf, imm_bit_two, decide_eq_true hn]

/-! ### The arithmetic instructions (40_alu.md R106 to R109) -/

/-- Settles O16: both kinds of byte run the ALU path that adds into RA. -/
theorem raAddWritesSumAndCarry : Obligations.RaAddWritesSumAndCarry := by
  refine fun s => ⟨fun x => ⟨by revert x; decide, ?_⟩, fun n hn hc => ⟨encodeByte_jc_toNat 0 n, ?_⟩⟩
  · exact congrArg Host.Outcome.next (aluPath_add _ .ra s)
  · rw [exec_jc_add hc (.inl rfl) hn, aluPath_add]; rfl

/-- Settles O17: both kinds of byte run the ALU path that subtracts into RA. -/
theorem raSubWritesDifferenceAndBorrow : Obligations.RaSubWritesDifferenceAndBorrow := by
  refine fun s => ⟨fun x => ⟨by revert x; decide, ?_⟩, fun n hn hc => ⟨encodeByte_jc_toNat 0 n, ?_⟩⟩
  · exact congrArg Host.Outcome.next (aluPath_sub _ .ra s)
  · rw [exec_jc_sub hc (.inl rfl) hn, aluPath_sub]; rfl

/-- Settles O18: both kinds of byte run the ALU path that adds into RB. -/
theorem rbAddWritesSumAndCarry : Obligations.RbAddWritesSumAndCarry := by
  refine fun s => ⟨fun x => ⟨by revert x; decide, ?_⟩, fun n hn hc => ⟨encodeByte_jc_toNat 2 n, ?_⟩⟩
  · exact congrArg Host.Outcome.next (aluPath_add _ .rb s)
  · rw [exec_jc_add hc (.inr rfl) hn, aluPath_add]; rfl

/-- Settles O19: both kinds of byte run the ALU path that subtracts into RB, with the operands in the same order. -/
theorem rbSubWritesDifferenceAndBorrow : Obligations.RbSubWritesDifferenceAndBorrow := by
  refine fun s => ⟨fun x => ⟨by revert x; decide, ?_⟩, fun n hn hc => ⟨encodeByte_jc_toNat 2 n, ?_⟩⟩
  · exact congrArg Host.Outcome.next (aluPath_sub _ .rb s)
  · rw [exec_jc_sub hc (.inr rfl) hn, aluPath_sub]; rfl

/-! ### A conditional jump and its fall-through (42_control_transfer.md R142, decision D7) -/

theorem exec_jc_of_not_carry {s : State} (h : s.carry = false) (f : BitVec 3) (n : Imm) :
    exec (.jc f n) s = .next (jumpPath (encodeByte (.jc f n)) n s) :=
  if_neg (by simp [h])

/-- Clearing bits 7 and 6 leaves of the descriptor all but the two jump flags. -/
theorem describe_low_six_bits (b : Byte) :
    describe (b &&& 0x3F#8) = { describe b with isJump := false, isConditionalJump := false } := by
  revert b; decide

/-- A byte with bits 7 and 6 cleared is no jump: its instruction runs its destination path. -/
theorem exec_low_six_bits (b : Byte) (s : State) :
    exec (decodeByte (b &&& 0x3F#8)) s = .next (destinationPath (b &&& 0x3F#8) s) := by
  have hnot : jumpTaken (b &&& 0x3F#8) s.carry = false := by simp [jumpTaken, describe_low_six_bits]
  rw [exec_eq, encodeByte_decodeByte, runByte, hnot]; rfl

theorem immPath_onlyRecordsByte (d : Dest) (n : Imm) (s : State) : OnlyRecordsByte s (immPath · d n s) := by
  intro b c
  simp only [immPath_eq]
  exact ⟨rfl, .inr ⟨rfl, rfl, [], rfl, rfl⟩⟩

/-- The destination path reads a byte through three fields of its descriptor, and otherwise only records it. -/
theorem destinationPath_sameButByte {b c : Byte} (hclass : (describe b).opcodeClass = (describe c).opcodeClass)
    (hdest : (describe b).destination = (describe c).destination)
    (himm : (describe b).immediateValue = (describe c).immediateValue) (s : State) :
    sameButByte b c s (destinationPath b s) (destinationPath c s) := by
  rw [destinationPath, destinationPath, hclass, hdest, himm]
  cases (describe c).opcodeClass with
  | aluAdd => exact aluPath_onlyRecordsByte _ false s b c
  | aluSub => exact aluPath_onlyRecordsByte _ true s b c
  | loadImm => exact immPath_onlyRecordsByte _ _ s b c
  | output => exact outputPath_onlyRecordsByte s b c
  | unknown => exact raiseDecodeUnknown_onlyRecordsByte s b c

theorem destinationPath_low_six_bits (b : Byte) (s : State) :
    sameButByte b (b &&& 0x3F#8) s (destinationPath b s) (destinationPath (b &&& 0x3F#8) s) :=
  destinationPath_sameButByte (by rw [describe_low_six_bits]) (by rw [describe_low_six_bits])
    (by rw [describe_low_six_bits]) s

/-- The class is unknown exactly on the reserved pattern, D = 3 (30_encoding.md R71). -/
theorem classOf_ne_unknown_iff (b : Byte) : classOf b ≠ .unknown ↔ dField b < 3 := by
  have hD : dField b < 4 := by unfold dField; omega
  rw [classOf_eq]
  split_ifs <;> simp <;> omega

/-- Every destination path advances but the reserved one, which keeps PC. -/
theorem destinationPath_pc (b : Byte) (s : State) :
    (destinationPath b s).pc = if dField b < 3 then pcAfter s else s.pc := by
  simp only [← classOf_ne_unknown_iff]
  obtain ⟨hc, hp⟩ | ⟨hc, hp⟩ | ⟨hc, hp⟩ | ⟨hc, hp⟩ | ⟨hc, hp⟩ := destinationPath_cases b s
  · simp [hp, hc, aluPath_eq, pcAfter]
  · simp [hp, hc, aluPath_eq, pcAfter]
  · simp [hp, hc, immPath_eq, pcAfter]
  · simp [hp, hc, outputPath_eq, pcAfter]
  · simp [hp, hc, raiseDecodeUnknown_eq]

/-! ### A subtraction and the JC after it (40_alu.md R102) -/

/-- Every instruction that subtracts leaves the borrow in Carry. -/
theorem exec_subtraction_carry {i : Instr} {s : State}
    (h : (∃ x, i = .raSub x) ∨ (∃ x, i = .rbSub x) ∨
      (s.carry = true ∧ ∃ g m, (g = 0 ∨ g = 2) ∧ 4 ≤ m.toNat ∧ i = .jc g m)) :
    ∃ t, exec i s = .next t ∧ t.carry = decide (s.ra.toNat < s.rb.toNat) := by
  have hcarry (b : Byte) (d : Dest) : (aluPath b d true s).carry = decide (s.ra.toNat < s.rb.toNat) := by
    rw [aluPath_sub]
  obtain ⟨x, rfl⟩ | ⟨x, rfl⟩ | ⟨hc, g, m, hg, hm, rfl⟩ := h
  · exact ⟨_, rfl, hcarry _ _⟩
  · exact ⟨_, rfl, hcarry _ _⟩
  · exact ⟨_, exec_jc_sub hc hg hm, hcarry _ _⟩

/-- Settles O15: the JC tests the borrow, and without a jump it runs its destination path, as the byte with bits 7
and 6 cleared does. -/
theorem jumpAfterSubtractionComparesOperands : Obligations.JumpAfterSubtractionComparesOperands := by
  intro i s f n hi
  obtain ⟨t, hexec, hcarry⟩ := exec_subtraction_carry hi
  refine ⟨t, hexec, fun hge => ?_, fun hlt => ?_⟩
  · have hclear : t.carry = false := by rw [hcarry, decide_eq_false (Nat.not_lt.2 hge)]
    rw [exec_jc_of_not_carry hclear, jumpPath_eq, jumpTarget]
  · have hset : t.carry = true := by rw [hcarry, decide_eq_true hlt]
    obtain ⟨hd, -, -⟩ := fields_jc f n
    refine ⟨hset, _, _, exec_jc_of_carry hset f n, exec_low_six_bits _ t, destinationPath_low_six_bits _ t, ?_⟩
    rw [destinationPath_pc, hd]
    exact if_congr (by omega) rfl rfl

end Sys2Proof.Proofs

/-! The statements of 41_register_writes.md: the immediate loads and the output instruction with the not-taken JC bytes
that fall through to them, which steps output, and the strobes that show what a cycle emits. -/

namespace Sys2Proof.Proofs

open Sys2Proof.Machine Sys2Proof.Expected

/-! ### The events of a step (41_register_writes.md R123, 43_execution_engine.md R170) -/

/-- What a byte adds to the trace: its retire event with RA as the output, its retire event alone, or nothing when it
raises DecodeUnknown. -/
theorem RunsTo.trace_cases {b : Byte} {s t : State} (h : RunsTo b s t) :
    ((¬jumps b s ∧ dField b = 2) ∧ t.ro = s.ra ∧ t.trace = s.trace ++ [.retire s.pc b, .output s.ra]) ∨
    ((jumps b s ∨ dField b < 2) ∧ t.trace = s.trace ++ [.retire s.pc b]) ∨
    ((¬jumps b s ∧ dField b = 3) ∧ t.trace = s.trace ++ []) := by
  cases h with
  | jump hj => exact .inr (.inl ⟨.inl hj, rfl⟩)
  | alu _ hd => rw [aluPath_eq]; exact .inr (.inl ⟨.inr hd, rfl⟩)
  | imm _ hd => rw [immPath_eq]; exact .inr (.inl ⟨.inr hd, rfl⟩)
  | output hj hd => rw [outputPath_eq]; exact .inl ⟨⟨hj, hd⟩, rfl, rfl⟩
  | unknown hj hd => exact .inr (.inr ⟨⟨hj, hd⟩, (List.append_nil _).symm⟩)

/-- Settles O35: the output path alone emits an output event, and its condition excludes those of the others. -/
theorem outputEventIffOutputPath : Obligations.OutputEventIffOutputPath := by
  intro s t b hr hb hstep
  have hrun := (step_next_iff hr hb).1 hstep
  obtain ⟨hpath, hro, htrace⟩ | ⟨hother, htrace⟩ | ⟨⟨-, hd⟩, htrace⟩ := hrun.trace_cases
  · exact ⟨fun _ => ⟨hro, outputs_append htrace⟩, fun hnot => absurd hpath hnot⟩
  · refine ⟨fun ⟨hj, hd⟩ => ?_, fun _ => (outputs_append htrace).trans (List.append_nil _)⟩
    obtain hjump | hlt := hother
    · exact absurd hjump hj
    · omega
  · exact ⟨fun ⟨_, hd2⟩ => by omega, fun _ => (outputs_append htrace).trans (List.append_nil _)⟩

/-! ### The events of a cycle and its strobes (43_execution_engine.md R169, R173) -/

theorem retires_append {s t : State} {es : List Event} (h : t.trace = s.trace ++ es) :
    retires t = retires s ++ es.filterMap Event.retired := by
  rw [retires, h, List.filterMap_append, retires]

theorem cycleEvents_of_disabled {p : Pins} (hen : p.en = false) (s : State) : cycleEvents p s = [] := by
  simp [cycleEvents, hen]

/-- An enabled cycle emits what its step adds to the trace. -/
theorem cycleEvents_of_step {p : Pins} {s t : State} {es : List Event} (hrst : p.rst = false) (hen : p.en = true)
    (hstep : step s = .next t) (htrace : t.trace = s.trace ++ es) : cycleEvents p s = es := by
  simp [cycleEvents, hrst, hen, hstep, htrace]

/-- What a cycle can emit, with an instruction at `pc` and the value that `ro` carries after it: nothing, one retire
event, or one retire event and one output. -/
def InstructionEvents (pc : Addr) (ro : Word) (es : List Event) : Prop :=
  es = [] ∨ (∃ b, es = [.retire pc b]) ∨ ∃ b, es = [.retire pc b, .output ro]

theorem step_trace {s t : State} (h : step s = .next t) :
    ∃ es, t.trace = s.trace ++ es ∧ InstructionEvents s.pc t.ro es := by
  obtain ⟨-, rfl⟩ | ⟨-, b, -, hrun⟩ := step_inversion h
  · exact ⟨[], (List.append_nil _).symm, .inl rfl⟩
  · obtain ⟨-, hro, htrace⟩ | ⟨-, htrace⟩ | ⟨-, htrace⟩ := hrun.trace_cases
    · exact ⟨_, htrace, .inr (.inr ⟨b, by rw [hro]⟩)⟩
    · exact ⟨_, htrace, .inr (.inl ⟨b, rfl⟩)⟩
    · exact ⟨_, htrace, .inl rfl⟩

/-- The events of a cycle without reset are those that its edge adds to the trace. -/
theorem clock_trace {p : Pins} {s t : State} (hrst : p.rst = false) (h : clock p s = .next t) :
    t.trace = s.trace ++ cycleEvents p s ∧ InstructionEvents s.pc t.ro (cycleEvents p s) := by
  obtain ⟨hset, -⟩ | ⟨-, hen, hstep⟩ | ⟨-, hen, rfl⟩ := clock_cases h
  · exact absurd hset (by simp [hrst])
  · obtain ⟨es, htrace, hevents⟩ := step_trace hstep
    rw [cycleEvents_of_step hrst hen hstep htrace]
    exact ⟨htrace, hevents⟩
  · rw [cycleEvents_of_disabled hen]
    exact ⟨(List.append_nil _).symm, .inl rfl⟩

/-- Settles O6: a cycle emits at most one event of each kind, so each strobe carries all there is of its kind. -/
theorem strobesMatchEvents : Obligations.StrobesMatchEvents := by
  intro p s t hrst hclock
  obtain ⟨htrace, hevents⟩ := clock_trace hrst hclock
  rw [outputs_append htrace, retires_append htrace, strobes]
  generalize cycleEvents p s = es at hevents
  obtain rfl | ⟨b, rfl⟩ | ⟨b, rfl⟩ := hevents
  · exact ⟨rfl, rfl, fun v hv => nomatch hv⟩
  · exact ⟨rfl, rfl, fun v hv => nomatch hv⟩
  · exact ⟨rfl, rfl, fun v hv => Option.some.inj hv⟩

/-! ### The immediate and the output path in the words of the statements -/

/-- An immediate load to `d` advances and writes the zero-extended immediate (41_register_writes.md R120, R121). -/
theorem immPath_load (b : Byte) (d : Dest) (n : Imm) (s : State) :
    immPath b d n s = writeDest d (BitVec.ofNat 8 n.toNat) (advanced b s) := by
  rw [immPath_eq, writeDest_eq, immOperand, BitVec.ofNat_toNat]; rfl

/-- The output path advances, copies RA to RO and emits the output after the retire event (41_register_writes.md R122,
R123). -/
theorem outputPath_copy (b : Byte) (s : State) :
    outputPath b s = { advanced b s with ro := s.ra, trace := s.trace ++ [.retire s.pc b, .output s.ra] } :=
  outputPath_eq b s

/-- A not-taken JC whose byte has Sreg = 1 and names RA or RB loads the immediate that its jump would go to. -/
theorem exec_jc_imm {s : State} (h : s.carry = true) {f : BitVec 3} (hf : f = 1 ∨ f = 3) (n : Imm) :
    exec (.jc f n) s = .next (immPath (encodeByte (.jc f n)) (if f = 1 then .ra else .rb) n s) := by
  obtain ⟨hd, h3, -⟩ := fields_jc f n
  obtain ⟨-, -, (himm : (encodeByte (.jc f n)).extractLsb' 0 3 = n)⟩ := describe_jc f n
  rw [exec_jc_of_carry h]
  obtain rfl | rfl := hf
  · rw [destinationPath_of_imm s (by rw [hd]; decide) h3, (destOf_eq_ra_iff _).2 hd, himm]; rfl
  · rw [destinationPath_of_imm s (by rw [hd]; decide) h3, (destOf_eq_rb_iff _).2 hd, himm]; rfl

/-! ### The immediate loads and the output (41_register_writes.md R120 to R122) -/

/-- Settles O20: both kinds of byte run the immediate path into RA. -/
theorem raImmLoadsImmediate : Obligations.RaImmLoadsImmediate := by
  refine fun s n => ⟨⟨by revert n; decide, ?_⟩, fun hc => ⟨encodeByte_jc_toNat 1 n, ?_⟩⟩
  · exact congrArg Host.Outcome.next (immPath_load _ .ra n s)
  · rw [exec_jc_imm hc (.inl rfl), immPath_load]; rfl

/-- Settles O21: both kinds of byte run the immediate path into RB. -/
theorem rbImmLoadsImmediate : Obligations.RbImmLoadsImmediate := by
  refine fun s n => ⟨⟨by revert n; decide, ?_⟩, fun hc => ⟨encodeByte_jc_toNat 3 n, ?_⟩⟩
  · exact congrArg Host.Outcome.next (immPath_load _ .rb n s)
  · rw [exec_jc_imm hc (.inr rfl), immPath_load]; rfl

/-- Settles O22: both kinds of byte run the output path. -/
theorem roRaCopiesAndOutputs : Obligations.RoRaCopiesAndOutputs := by
  refine fun s => ⟨fun x => ⟨by revert x; decide, ?_⟩, fun f n hf hc => ⟨?_, ?_⟩⟩
  · exact congrArg Host.Outcome.next (outputPath_copy _ s)
  · have hD : f.toNat / 2 = 2 := by obtain rfl | rfl := hf <;> rfl
    rw [encodeByte_jc_toNat]
    omega
  · rw [exec_jc_output hc hf, outputPath_copy]

end Sys2Proof.Proofs

/-! The statements of 42_control_transfer.md: what a jump writes, where its target lies, what a JC that falls through
does, and the jump to its own address. -/

namespace Sys2Proof.Proofs

open Sys2Proof.Machine Sys2Proof.Expected

/-! ### The target (42_control_transfer.md R143, decision D6) -/

/-- The 8 bits of PC hold every target, as an immediate is below 8. -/
theorem jumpTarget_toNat (n : Imm) (s : State) : (jumpTarget n s).toNat = n.toNat % s.mem.size := by
  have hle : n.toNat % s.mem.size ≤ n.toNat := Nat.mod_le _ _
  rw [jumpTarget, BitVec.toNat_ofNat, Nat.mod_eq_of_lt (by omega)]

theorem jumpTarget_lt_eight (n : Imm) (s : State) : (jumpTarget n s).toNat < 8 := by
  rw [jumpTarget_toNat]
  exact lt_of_le_of_lt (Nat.mod_le _ _) n.isLt

/-- The immediate field b[2:0] of a byte, as a number. -/
theorem immField_toNat (b : Byte) : (b.extractLsb' 0 3).toNat = b.toNat % 8 := by
  rw [BitVec.extractLsb'_toNat, Nat.shiftRight_zero]

/-- A target field that names an address of the memory is the target itself. -/
theorem jumpTarget_eq_pc {n : Imm} {s : State} (hn : s.pc.toNat = n.toNat) (hpc : s.pc.toNat < s.mem.size) :
    jumpTarget n s = s.pc := by
  rw [← BitVec.toNat_inj, jumpTarget_toNat, ← hn, Nat.mod_eq_of_lt hpc]

/-! ### The two jumps (42_control_transfer.md R141, R142) -/

theorem encodeByte_j_toNat (x : BitVec 4) (n : Imm) :
    (encodeByte (.j x n)).toNat = 0x80 + 8 * x.toNat + n.toNat := by
  revert x n; decide

/-- Settles O23: J=n runs the taken jump whatever its ignored bits are. -/
theorem jumpSetsPcOnly : Obligations.JumpSetsPcOnly :=
  fun s x n => ⟨encodeByte_j_toNat x n, congrArg Host.Outcome.next (jumpPath_eq (encodeByte (.j x n)) n s)⟩

/-- A destination path that advances retires its own byte, once, and leaves ErrByte. -/
theorem destinationPath_retires {b : Byte} (hd : dField b < 3) (s : State) :
    (destinationPath b s).errByte = s.errByte ∧ retires (destinationPath b s) = retires s ++ [(s.pc, b)] := by
  obtain ⟨-, hp⟩ | ⟨-, hp⟩ | ⟨-, hp⟩ | ⟨-, hp⟩ | ⟨hc, -⟩ := destinationPath_cases b s
  · simp [hp, aluPath_eq, retires]
  · simp [hp, aluPath_eq, retires]
  · simp [hp, immPath_eq, retires]
  · simp [hp, outputPath_eq, retires]
  · exact absurd hc ((classOf_ne_unknown_iff b).2 hd)

/-- Settles O24: with Carry = 1 both bytes run the destination path of the same low six bits, which only records the
byte: in ErrByte where D = f / 2 is 3, and in the retire event otherwise. -/
theorem conditionalJumpOrFallThrough : Obligations.ConditionalJumpOrFallThrough := by
  refine fun s f n => ⟨encodeByte_jc_toNat f n, fun hclear => ?_, fun hset => ?_⟩
  · rw [exec_jc_of_not_carry hclear, jumpPath_eq, jumpTarget]
  · obtain ⟨hd, -, -⟩ := fields_jc f n
    have hsame := destinationPath_low_six_bits (encodeByte (.jc f n)) s
    refine ⟨_, _, exec_jc_of_carry hset f n, exec_low_six_bits _ s, hsame.1, (observed_of_sameButByte hsame).1,
      fun hf => ?_, fun hf => destinationPath_retires (by omega) s⟩
    rw [destinationPath_of_unknown s (by omega), raiseDecodeUnknown_eq]
    exact ⟨rfl, rfl⟩

/-! ### The step of a taken jump (42_control_transfer.md R147, R148) -/

theorem step_of_jumps {s : State} {b : Byte} (hr : s.status = .running) (hb : fetch s = some b) (hj : jumps b s) :
    step s = .next (jumpPath b (b.extractLsb' 0 3) s) := by
  rw [step_eq_runByte hr hb, runByte_of_jumps hj]

/-- Settles O25: the step is the taken jump, with the immediate field of the byte as its target. -/
theorem takenJumpStep : Obligations.TakenJumpStep := by
  refine fun s b hr hb hj => ⟨_, step_of_jumps hr hb hj, jumpPath_eq b _ s, ?_, jumpTarget_lt_eight _ s⟩
  rw [← immField_toNat]
  exact jumpTarget_toNat _ s

/-- A taken jump to its own address retires, and changes nothing else. -/
theorem step_of_self_jump {s : State} {b : Byte} (hr : s.status = .running) (hb : fetch s = some b)
    (hj : jumps b s) (hself : s.pc.toNat = b.toNat % 8) : step s = .next (retire b s) := by
  obtain ⟨hpc, -⟩ := read_cases hb
  rw [step_of_jumps hr hb hj, jumpPath, jumpTarget_eq_pc (hself.trans (immField_toNat b).symm) hpc]
  rfl

/-- Settles O26, by induction on the number of steps: after one step the jump and its state stand as before, with one
more retire event. -/
theorem selfJumpRunsForever : Obligations.SelfJumpRunsForever := by
  intro k
  induction k with
  | zero => intro s b _ _ _ _; simp [runSteps]
  | succ k ih =>
    intro s b hr hb hj hself
    have hrest := ih (retire b s) b hr hb hj hself
    rw [runSteps, step_of_self_jump hr hb hj hself, List.replicate_succ, List.append_cons]
    exact hrest

end Sys2Proof.Proofs

/-! The statements of 43_execution_engine.md: the step is the engine of the rule, what it does to PC, Status and the
trace, that a machine in its invariant steps on and straight-line memory halts, and that both controllers run the
core. -/

namespace Sys2Proof.Proofs

open Sys2Proof.Machine Sys2Proof.Expected

/-! ### The ports (43_execution_engine.md R173) -/

/-- Settles O5: each port is read off its register, the two halt ports by a test of Status. -/
theorem portsShowRegisters : Obligations.PortsShowRegisters :=
  fun _ => ⟨rfl, rfl, beq_iff_eq, beq_iff_eq, rfl, rfl, rfl, rfl, rfl, rfl⟩

/-! ### The step and the instruction it runs (43_execution_engine.md R161, R162) -/

/-- Settles O29: the decoder reads one byte, so the list names the instruction that the step decodes. -/
theorem stepRunsDecodedInstruction : Obligations.StepRunsDecodedInstruction := by
  intro s b i hr hb hdec
  have hi : decodeByte b = i := by
    rw [decode_cons, Except.ok.injEq, Prod.mk.injEq] at hdec
    exact hdec.1
  rw [step_of_fetch hr hb, hi]

theorem tableByte_eight (w : Nat) : tableByte 8 w 0 = BitVec.ofNat 8 w := by
  rw [tableByte, pow_zero, Nat.div_one, ← BitVec.toNat_inj, BitVec.toNat_ofNat, BitVec.toNat_ofNat, Nat.mod_mod]

theorem decodeTableWord_eight (w : Nat) : decodeTableWord 8 w = some (decodeByte (BitVec.ofNat 8 w)) := by
  rw [← tableByte_eight]; rfl

/-- The host's byte at PC is the one that is fetched (20_memory.md R41, R42). -/
theorem fetch_withFetchWord {s : State} (hwf : s.mem.wf) (hpc : s.pc.toNat < s.mem.size) (w : Nat) :
    fetch (s.withFetchWord 8 w) = some (BitVec.ofNat 8 w) := by
  rw [← tableByte_eight, fetch, State.withFetchWord, read_load hwf hpc, if_pos rfl]

/-- Settles O40: the word's byte is fetched, and its instruction has it as its byte. -/
theorem fetchWordRunsNext : Obligations.FetchWordRunsNext :=
  fun _ w hwf hr hpc => ⟨_, decodeTableWord_eight w, encodeByte_decodeByte _,
    step_of_fetch hr (fetch_withFetchWord hwf hpc w)⟩

/-! ### The engine over the descriptor (43_execution_engine.md R161) -/

theorem destOf_of_dField_lt_two {b : Byte} (hd : dField b < 2) : destOf b = .ra ∨ destOf b = .rb := by
  rw [destOf_eq_ra_iff, destOf_eq_rb_iff]; omega

theorem executeByte_of_jumps {b : Byte} {s : State} (hj : jumps b s) :
    executeByte b s = jumpPath b (b.extractLsb' 0 3) s :=
  if_pos ((jumpTaken_iff b s).2 hj)

/-- The ALU lines of the engine write RA or RB, whichever D names, as the ALU path does. -/
theorem executeByte_of_alu {b : Byte} {s : State} (hj : ¬jumps b s) (hd : dField b < 2) (h3 : b[3] = false) :
    executeByte b s = aluPath b (destOf b) b[2] s := by
  have hclass : classOf b = if b[2] then .aluSub else .aluAdd := by
    rw [classOf_eq, if_neg (by omega), if_neg (by omega), h3]; rfl
  rw [← jumpTaken_iff] at hj
  obtain hdest | hdest := destOf_of_dField_lt_two hd
  all_goals
    cases h2 : b[2] <;>
      simp [executeByte, hj, describe, hclass, h2, hdest, aluPath, aluOperands, writeDest, retire, State.setRA,
        State.setRB, State.setCarry]

/-- The immediate lines of the engine write RA or RB, whichever D names, as the immediate path does. -/
theorem executeByte_of_imm {b : Byte} {s : State} (hj : ¬jumps b s) (hd : dField b < 2) (h3 : b[3] = true) :
    executeByte b s = immPath b (destOf b) (b.extractLsb' 0 3) s := by
  have hclass : classOf b = .loadImm := by rw [classOf_eq, if_neg (by omega), if_neg (by omega), if_pos h3]
  rw [← jumpTaken_iff] at hj
  obtain hdest | hdest := destOf_of_dField_lt_two hd
  all_goals
    simp [executeByte, hj, describe, hclass, hdest, immPath, immOperand, writeDest, retire, State.setRA, State.setRB]

theorem executeByte_of_output {b : Byte} {s : State} (hj : ¬jumps b s) (hd : dField b = 2) :
    executeByte b s = outputPath b s := by
  rw [← jumpTaken_iff] at hj
  simp [executeByte, hj, describe, classOf_eq, hd, outputPath, writeDest, retire, State.emit, State.setRO]

theorem executeByte_of_unknown {b : Byte} {s : State} (hj : ¬jumps b s) (hd : dField b = 3) :
    executeByte b s = raiseDecodeUnknown b s := by
  rw [← jumpTaken_iff] at hj
  simp [executeByte, hj, describe, classOf_eq, hd, raiseDecodeUnknown_eq]

theorem RunsTo.eq_executeByte {b : Byte} {s t : State} (h : RunsTo b s t) : t = executeByte b s := by
  cases h with
  | jump hj => exact (executeByte_of_jumps hj).symm
  | alu hj hd h3 => exact (executeByte_of_alu hj hd h3).symm
  | imm hj hd h3 => exact (executeByte_of_imm hj hd h3).symm
  | output hj hd => exact (executeByte_of_output hj hd).symm
  | unknown hj hd => exact (executeByte_of_unknown hj hd).symm

/-- Settles O30: the step runs one of the five paths, and the engine runs the same one. -/
theorem stepIsDescriptorEngine : Obligations.StepIsDescriptorEngine := by
  intro s b hr hb
  rw [step_eq_runByte hr hb, (runsTo_runByte b s).eq_executeByte]

/-! ### PC and Status (43_execution_engine.md R164, 10_state.md R26) -/

/-- What a byte does to PC and Status: a taken jump goes to its target, the reserved pattern halts in place, and every
other path advances. -/
theorem RunsTo.control_cases {b : Byte} {s t : State} (h : RunsTo b s t) :
    (jumps b s ∧ t.pc = jumpTarget (b.extractLsb' 0 3) s ∧ t.status = s.status) ∨
    ((¬jumps b s ∧ dField b < 3) ∧ t.pc = pcAfter s ∧ t.status = statusAfter s) ∨
    ((¬jumps b s ∧ dField b = 3) ∧ t.pc = s.pc ∧ t.status = .haltedError) := by
  cases h with
  | jump hj => exact .inl ⟨hj, rfl, rfl⟩
  | alu hj hd => rw [aluPath_eq]; exact .inr (.inl ⟨⟨hj, by omega⟩, rfl, rfl⟩)
  | imm hj hd => rw [immPath_eq]; exact .inr (.inl ⟨⟨hj, by omega⟩, rfl, rfl⟩)
  | output hj hd => rw [outputPath_eq]; exact .inr (.inl ⟨⟨hj, by omega⟩, rfl, rfl⟩)
  | unknown hj hd => exact .inr (.inr ⟨⟨hj, hd⟩, rfl, rfl⟩)

/-- Advancing at N - 1. -/
theorem advance_at_end {s : State} (h : s.pc.toNat + 1 = s.mem.size) :
    pcAfter s = s.pc ∧ statusAfter s = .haltedNormal :=
  ⟨if_pos h, if_pos h⟩

/-- Advancing below N - 1, where the 8 bits of PC hold the next address. -/
theorem advance_below_end {s : State} (hsize : s.mem.size ≤ 256) (hpc : s.pc.toNat < s.mem.size)
    (h : s.pc.toNat + 1 ≠ s.mem.size) :
    (pcAfter s).toNat = s.pc.toNat + 1 ∧ statusAfter s = s.status := by
  refine ⟨?_, if_neg h⟩
  rw [pcAfter, if_neg h]
  bv_omega

/-- Settles O31: each case of the step has its own condition on the byte, and an advance ends the run at N - 1 only. -/
theorem pcAndStatusAfterStep : Obligations.PcAndStatusAfterStep := by
  intro s t b hsize hr hb hstep
  obtain ⟨hpc, -⟩ := read_cases hb
  obtain ⟨hj, htpc, hts⟩ | ⟨⟨hj, hd⟩, htpc, hts⟩ | ⟨⟨hj, hd⟩, htpc, hts⟩ :=
    ((step_next_iff hr hb).1 hstep).control_cases
  · refine ⟨fun _ => ⟨?_, hts.trans hr⟩, absurd hj, absurd hj, absurd hj⟩
    rw [htpc, jumpTarget_toNat, immField_toNat]
  · rw [htpc, hts]
    refine ⟨fun h => absurd h hj, fun _ h3 => by omega, fun _ _ hend => advance_at_end (by omega),
      fun _ _ hend => ?_⟩
    obtain ⟨hnext, hstatus⟩ := advance_below_end hsize hpc (by omega)
    exact ⟨hnext, hstatus.trans hr⟩
  · exact ⟨fun h => absurd h hj, fun _ _ => ⟨htpc, hts⟩, fun _ h3 => absurd hd h3, fun _ h3 => absurd hd h3⟩

/-! ### The trace of a step (43_execution_engine.md R166, R170) -/

theorem RunsTo.haltedError_iff {b : Byte} {s t : State} (hr : s.status = .running) (h : RunsTo b s t) :
    t.status = .haltedError ↔ ¬jumps b s ∧ dField b = 3 := by
  obtain ⟨hj, -, hts⟩ | ⟨⟨-, hd⟩, -, hts⟩ | ⟨hpath, -, hts⟩ := h.control_cases
  · simp [hts, hr, hj]
  · have hd3 : dField b ≠ 3 := by omega
    rw [hts, statusAfter, hr]
    split_ifs <;> simp [hd3]
  · simp [hts, hpath]

/-- A jump, the ALU path and the immediate path exclude the paths of D = 2 and D = 3. -/
theorem not_path_of_two_le {b : Byte} {s : State} {k : Nat} (h : jumps b s ∨ dField b < 2) (hk : 2 ≤ k) :
    ¬(¬jumps b s ∧ dField b = k) := by
  obtain hjump | hlt := h
  · exact fun ⟨hj, _⟩ => hj hjump
  · exact fun ⟨_, hd⟩ => by omega

/-- A byte retires once, or raises DecodeUnknown and adds no event (decision D22). -/
theorem RunsTo.retires_cases {b : Byte} {s t : State} (hr : s.status = .running) (h : RunsTo b s t) :
    (t.status ≠ .haltedError ∧ retires t = retires s ++ [(s.pc, b)]) ∨
    (t.status = .haltedError ∧ t.trace = s.trace) := by
  rw [Ne, h.haltedError_iff hr]
  obtain ⟨⟨-, hd⟩, -, htrace⟩ | ⟨hother, htrace⟩ | ⟨hpath, htrace⟩ := h.trace_cases
  · exact .inl ⟨fun ⟨_, hd3⟩ => by omega, retires_append htrace⟩
  · exact .inl ⟨not_path_of_two_le hother (by decide), retires_append htrace⟩
  · exact .inr ⟨hpath, htrace.trans (List.append_nil _)⟩

/-- Settles O34: the step counts by its retire event, or by the error halt it ends in. -/
theorem everyStepRetiresOnce : Obligations.EveryStepRetiresOnce := by
  intro s t b hr hb hstep
  obtain ⟨hok, hret⟩ | ⟨herr, htrace⟩ := ((step_next_iff hr hb).1 hstep).retires_cases hr
  · exact ⟨by simp [stepsTaken, hret, hok, hr], fun _ => hret, fun h => absurd h hok⟩
  · exact ⟨by simp [stepsTaken, retires, htrace, herr, hr], fun h => absurd herr h, fun _ => htrace⟩

/-! ### The trace records (43_execution_engine.md R170) -/

/-- The records in order are those of the retire events, along the recursion of `traceRecords`. -/
theorem traceRecords_map (es : List Event) :
    (traceRecords es).map (fun r => (r.pc, r.mnemonic)) =
      (es.filterMap Event.retired).map (fun r => (r.1, dis r.2)) := by
  induction es using traceRecords.induct with
  | case1 => rfl
  | case2 pc b v rest ih => simp [traceRecords, ih, List.filterMap_cons]
  | case3 pc b rest hrest ih => simp [traceRecords, ih]
  | case4 v rest ih => simp [traceRecords, ih, List.filterMap_cons]

/-- Settles O38: what the step adds to the trace has one record, or none where it adds nothing. -/
theorem traceRecordsFollowRetires : Obligations.TraceRecordsFollowRetires := by
  refine ⟨fun s => traceRecords_map s.trace, fun s t b hr hb hstep => ?_⟩
  obtain ⟨⟨hj, hd⟩, hro, htrace⟩ | ⟨hother, htrace⟩ | ⟨⟨hj, hd⟩, htrace⟩ :=
    ((step_next_iff hr hb).1 hstep).trace_cases
  · rw [htrace, traceRecords_append_retire]
    exact ⟨fun _ => ⟨rfl, hro⟩, fun h => absurd ⟨hj, hd⟩ (not_path_of_two_le h (by decide)),
      fun ⟨_, hd3⟩ => by omega⟩
  · rw [htrace, traceRecords_append_retire]
    exact ⟨fun h => absurd h (not_path_of_two_le hother (by decide)), fun _ => rfl,
      fun h => absurd h (not_path_of_two_le hother (by decide))⟩
  · rw [htrace, List.append_nil]
    exact ⟨fun ⟨_, hd2⟩ => by omega, fun h => absurd ⟨hj, hd⟩ (not_path_of_two_le h (by decide)),
      fun _ => rfl⟩

/-! ### A machine in its invariant (43_execution_engine.md R162, R165) -/

/-- A running core with PC in the memory fetches a byte, and the byte runs. -/
theorem exists_step_of_running {s : State} (hr : s.status = .running) (hpc : s.pc.toNat < s.mem.size) :
    ∃ b t, fetch s = some b ∧ step s = .next t ∧ RunsTo b s t := by
  have hb : fetch s = some (cellsRead s.mem.cells s.pc.toNat) := read_eq_some hpc
  exact ⟨_, _, hb, step_eq_runByte hr hb, runsTo_runByte _ s⟩

/-- Settles O46: a running core fetches and runs a byte, and a halted one answers itself. -/
theorem invariantStateSteps : Obligations.InvariantStateSteps := by
  intro s h
  by_cases hr : s.status = .running
  · obtain ⟨-, t, -, hstep, -⟩ := exists_step_of_running hr h.pcInMemory
    exact ⟨t, hstep⟩
  · exact ⟨s, step_of_halted hr⟩

theorem not_jumps_of_lt {b : Byte} (h : b.toNat < 0x40) (s : State) : ¬jumps b s := by
  have h7 : b[7] = false := by
    rw [← BitVec.getLsbD_eq_getElem]; exact Nat.testBit_lt_two_pow (by omega)
  have h6 : b[6] = false := by
    rw [← BitVec.getLsbD_eq_getElem]; exact Nat.testBit_lt_two_pow (by omega)
  simp [jumps, h7, h6]

/-- Without a jump a byte halts the core or brings it one address nearer to the end of the memory. -/
theorem RunsTo.halts_or_advances {b : Byte} {s t : State} (h : RunsTo b s t) (hsize : s.mem.size ≤ 256)
    (hpc : s.pc.toNat < s.mem.size) (hj : ¬jumps b s) :
    t.status ≠ .running ∨ t.pc.toNat = s.pc.toNat + 1 := by
  obtain ⟨hjump, -, -⟩ | ⟨-, htpc, hts⟩ | ⟨-, -, hts⟩ := h.control_cases
  · exact absurd hjump hj
  · rw [htpc, hts]
    by_cases hend : s.pc.toNat + 1 = s.mem.size
    · exact .inl (by simp [advance_at_end hend])
    · exact .inr (advance_below_end hsize hpc hend).1
  · exact .inl (by simp [hts])

theorem runSteps_succ_of_step {s t : State} (h : step s = .next t) (k : Nat) :
    runSteps (k + 1) s = runSteps k t := by
  rw [runSteps, h]

/-- A run of one more step answers a next state when its first step does and the others do from there. -/
theorem runSteps_succ_cases {k : Nat} {s t : State} (h : runSteps (k + 1) s = .next t) :
    ∃ u, step s = .next u ∧ runSteps k u = .next t := by
  unfold runSteps at h
  split at h
  · next u hstep => exact ⟨u, hstep, h⟩
  · cases h
  · cases h

/-- The run of a memory without jumps, by induction on the number `n` of addresses left from PC on. -/
theorem exists_halted_of_straightLine (n : Nat) {s : State} (h : CoreInv s)
    (hlow : ∀ a b, s.mem.read a = some b → b.toNat < 0x40) (hn : s.mem.size - s.pc.toNat = n) :
    ∃ k t, k ≤ n ∧ runSteps k s = .next t ∧ t.status ≠ .running := by
  induction n generalizing s with
  | zero => exact absurd h.pcInMemory (by omega)
  | succ n ih =>
    by_cases hr : s.status = .running
    · obtain ⟨b, t, hb, hstep, hrun⟩ := exists_step_of_running hr h.pcInMemory
      have hj : ¬jumps b s := not_jumps_of_lt (hlow _ b hb) s
      obtain hhalt | hpc := hrun.halts_or_advances h.memWf.2.1 h.pcInMemory hj
      · exact ⟨1, t, by omega, runSteps_succ_of_step hstep 0, hhalt⟩
      · obtain ⟨k, u, hk, hu, hhalt⟩ := ih (coreInv_of_runsTo hr hb h hrun) (by rwa [hrun.mem_eq])
          (by rw [hrun.mem_eq]; omega)
        exact ⟨k + 1, u, by omega, (runSteps_succ_of_step hstep k).trans hu, hhalt⟩
    · exact ⟨0, s, by omega, rfl, hr⟩

/-- Settles O51: each step without a jump halts or uses up one of the N - PC addresses that are left. -/
theorem straightLineMemoryHalts : Obligations.StraightLineMemoryHalts :=
  fun _ h hlow => exists_halted_of_straightLine _ h hlow rfl

/-! ### The controller (43_execution_engine.md R168, R169) -/

theorem clock_of_enabled {p : Pins} (hrst : p.rst = false) (hen : p.en = true) (s : State) : clock p s = step s := by
  simp [clock, hrst, hen]

theorem clock_of_disabled {p : Pins} (hrst : p.rst = false) (hen : p.en = false) (s : State) :
    clock p s = .next s := by
  simp [clock, hrst, hen]

theorem enabledEdges_eq_countP (ps : List Pins) : enabledEdges ps = ps.countP Pins.en := by
  induction ps with
  | nil => rfl
  | cons p ps ih => rw [enabledEdges, ih, List.countP_cons, Nat.add_comm]

/-- An enabled edge is one step of the run, a disabled edge none. -/
theorem clocks_eq_runSteps {ps : List Pins} (hrst : ∀ p ∈ ps, p.rst = false) (s : State) :
    clocks ps s = runSteps (ps.countP Pins.en) s := by
  induction ps generalizing s with
  | nil => rfl
  | cons p ps ih =>
    obtain ⟨hp, hps⟩ := List.forall_mem_cons.1 hrst
    cases hen : p.en with
    | true =>
      rw [List.countP_cons_of_pos hen, clocks, runSteps, clock_of_enabled hp hen]
      cases step s with
      | next t => exact ih hps t
      | fault r => rfl
      | refused r => rfl
    | false =>
      rw [List.countP_cons_of_neg (by simp [hen]), clocks, clock_of_disabled hp hen]
      exact ih hps s

/-- Settles O3: the statement's test of an edge is the model's `en`, and each enabled edge is a step. -/
theorem enabledEdgesAreSteps : Obligations.EnabledEdgesAreSteps := by
  intro ps s hrst
  have hen : (fun p : Pins => decide (p.run = true ∨ p.step = true)) = Pins.en := by
    funext p; simp [Pins.en]
  rw [hen]
  exact ⟨clocks_eq_runSteps hrst s, enabledEdges_eq_countP ps⟩

/-! ### The two-cycle controller (43_execution_engine.md R169) -/

theorem twoCycleClocks_cons_of_next {p : Pins} {t u : TwoCycle} (h : twoCycleClock p t = .next u) (ps : List Pins) :
    twoCycleClocks (p :: ps) t = twoCycleClocks ps u := by
  rw [twoCycleClocks, h]

theorem twoCycleClocks_cons_cases {p : Pins} {ps : List Pins} {t u : TwoCycle}
    (h : twoCycleClocks (p :: ps) t = .next u) :
    ∃ v, twoCycleClock p t = .next v ∧ twoCycleClocks ps v = .next u := by
  unfold twoCycleClocks at h
  split at h
  · next v hp => exact ⟨v, hp, h⟩
  · cases h
  · cases h

theorem twoCycleClock_of_fetch {p : Pins} {s : State} {b : Byte} (hrst : p.rst = false) (hen : p.en = true)
    (hr : s.status = .running) (hb : fetch s = some b) :
    twoCycleClock p { core := s, latch := none } = .next { core := s, latch := some b } := by
  simp [twoCycleClock, hrst, hen, hr, hb]

theorem twoCycleClock_of_fetch_none {p : Pins} {s : State} (hrst : p.rst = false) (hen : p.en = true)
    (hr : s.status = .running) (hb : fetch s = none) :
    twoCycleClock p { core := s, latch := none } = .fault .fetchOutsideMemory := by
  simp [twoCycleClock, hrst, hen, hr, hb]

theorem twoCycleClock_of_full {p : Pins} {s : State} (hrst : p.rst = false) (hen : p.en = true)
    (hr : s.status = .running) (b : Byte) :
    twoCycleClock p { core := s, latch := some b } = .next { core := runByte b s, latch := none } := by
  simp [twoCycleClock, hrst, hen, hr, exec_eq, encodeByte_decodeByte]

theorem twoCycleClock_of_idle {p : Pins} {t : TwoCycle} (hrst : p.rst = false)
    (hidle : ¬(p.en = true ∧ t.core.status = .running)) : twoCycleClock p t = .next t := by
  simp [twoCycleClock, hrst, hidle]

/-- Two enabled edges from an empty latch are one step: a fetch and an execution, or nothing twice in a halt. -/
theorem twoCycleClocks_of_step {p : Pins} {s t : State} (hrst : p.rst = false) (hen : p.en = true)
    (hstep : step s = .next t) (ps : List Pins) :
    twoCycleClocks (p :: p :: ps) { core := s, latch := none } = twoCycleClocks ps { core := t, latch := none } := by
  obtain ⟨hhalt, rfl⟩ | ⟨hr, b, hb, hrun⟩ := step_inversion hstep
  · have hidle : twoCycleClock p { core := t, latch := none } = .next { core := t, latch := none } :=
      twoCycleClock_of_idle hrst fun ⟨_, hr⟩ => hhalt hr
    rw [twoCycleClocks_cons_of_next hidle, twoCycleClocks_cons_of_next hidle]
  · rw [twoCycleClocks_cons_of_next (twoCycleClock_of_fetch hrst hen hr hb),
      twoCycleClocks_cons_of_next (twoCycleClock_of_full hrst hen hr b), hrun.eq_runByte]

/-- What a full latch holds is the byte at PC. -/
def LatchIsFetched (t : TwoCycle) : Prop := ∀ b, t.latch = some b → fetch t.core = some b

theorem latchIsFetched_empty (s : State) : LatchIsFetched { core := s, latch := none } :=
  fun _ hb => nomatch hb

/-- An edge without reset keeps the latch true to the memory, and leaves the core alone or commits one whole step. -/
theorem twoCycleClock_cases {p : Pins} {t u : TwoCycle} (hrst : p.rst = false) (ht : LatchIsFetched t)
    (h : twoCycleClock p t = .next u) :
    LatchIsFetched u ∧ (u.core = t.core ∨ step t.core = .next u.core) := by
  by_cases hgo : p.en = true ∧ t.core.status = .running
  · obtain ⟨hen, hr⟩ := hgo
    obtain ⟨s, latch⟩ := t
    cases latch with
    | none =>
      cases hb : fetch s with
      | none => rw [twoCycleClock_of_fetch_none hrst hen hr hb] at h; cases h
      | some b =>
        rw [twoCycleClock_of_fetch hrst hen hr hb] at h
        cases h
        exact ⟨fun c hc => by rwa [← hc], .inl rfl⟩
    | some b =>
      rw [twoCycleClock_of_full hrst hen hr b] at h
      cases h
      exact ⟨latchIsFetched_empty _, .inr (step_eq_runByte hr (ht b rfl))⟩
  · rw [twoCycleClock_of_idle hrst hgo] at h
    cases h
    exact ⟨ht, .inl rfl⟩

/-- The core that the two-cycle controller shows is always a state of the run. -/
theorem exists_runSteps_of_twoCycleClocks {ps : List Pins} {t u : TwoCycle} (hrst : ∀ p ∈ ps, p.rst = false)
    (ht : LatchIsFetched t) (h : twoCycleClocks ps t = .next u) : ∃ k, runSteps k t.core = .next u.core := by
  induction ps generalizing t with
  | nil => cases h; exact ⟨0, rfl⟩
  | cons p ps ih =>
    obtain ⟨hp, hps⟩ := List.forall_mem_cons.1 hrst
    obtain ⟨v, hv, hrest⟩ := twoCycleClocks_cons_cases h
    obtain ⟨hlatch, hcore⟩ := twoCycleClock_cases hp ht hv
    obtain ⟨k, hk⟩ := ih hps hlatch hrest
    obtain hsame | hstep := hcore
    · exact ⟨k, hsame ▸ hk⟩
    · exact ⟨k + 1, (runSteps_succ_of_step hstep k).trans hk⟩

/-- Settles O4: forward by induction on the steps, two edges to each; backward by the latch, which holds the byte at PC
when it is full. -/
theorem twoCycleControllerIsEquivalent : Obligations.TwoCycleControllerIsEquivalent := by
  refine ⟨fun k s t h => ?_, fun ps s u hrst h => exists_runSteps_of_twoCycleClocks hrst (latchIsFetched_empty s) h⟩
  induction k generalizing s with
  | zero => cases h; rfl
  | succ k ih =>
    obtain ⟨v, hstep, hrest⟩ := runSteps_succ_cases h
    rw [Nat.mul_succ, List.replicate_succ, List.replicate_succ, twoCycleClocks_of_step rfl rfl hstep]
    exact ih v hrest

end Sys2Proof.Proofs

/-! The statements of 60_exceptions.md: which bytes raise DecodeUnknown, what raising it records, and that a launched
core meets no other exception. -/

namespace Sys2Proof.Proofs

open Sys2Proof.Machine Sys2Proof.Expected

/-! ### The record of DecodeUnknown (60_exceptions.md R201) -/

theorem encodeByte_unknown_toNat (x : BitVec 4) : (encodeByte (.unknown x)).toNat = 0x30 + x.toNat := by
  revert x; decide

theorem exec_unknown (x : BitVec 4) (s : State) :
    exec (.unknown x) s = .next (raiseDecodeUnknown (encodeByte (.unknown x)) s) := rfl

/-- A request for a step in a halted core changes nothing (43_execution_engine.md R167). -/
theorem eq_of_step_of_halted {s t : State} (hs : s.status ≠ .running) (h : step s = .next t) : t = s :=
  (Host.Outcome.next.inj ((step_of_halted hs).symm.trans h)).symm

/-- Settles O27: both kinds of byte run `raiseDecodeUnknown`, and the state it leads to is a halted one. -/
theorem reservedPatternRecordsError : Obligations.ReservedPatternRecordsError := by
  refine fun s => ⟨fun x => ⟨encodeByte_unknown_toNat x, ?_⟩, fun f n hf hc => ⟨?_, ?_⟩, fun herr u hstep => ?_⟩
  · rw [exec_unknown, raiseDecodeUnknown_eq]
  · have hf6 : 6 ≤ f.toNat := by obtain rfl | rfl := hf <;> decide
    rw [encodeByte_jc_toNat]
    omega
  · rw [exec_jc_unknown hc hf, raiseDecodeUnknown_eq]
  · exact eq_of_step_of_halted (by simp [herr]) hstep

/-! ### The bytes that raise it (60_exceptions.md R200, decision D8) -/

/-- The bits of R140 read off the byte as a number. -/
theorem jumps_iff_toNat (b : Byte) (s : State) :
    jumps b s ↔ b.toNat / 128 % 2 = 1 ∨ (b.toNat / 64 % 2 = 1 ∧ s.carry = false) := by
  have h7 : b.toNat / 128 % 2 = b[7].toNat := toNat_div_mod_two b 7 (by decide)
  have h6 : b.toNat / 64 % 2 = b[6].toNat := toNat_div_mod_two b 6 (by decide)
  rw [jumps, h7, h6, Bool.toNat_eq_one, Bool.toNat_eq_one]

theorem raises_iff_range (b : Byte) (s : State) :
    ¬jumps b s ∧ dField b = 3 ↔
      (0x30 ≤ b.toNat ∧ b.toNat ≤ 0x3F) ∨ (0x70 ≤ b.toNat ∧ b.toNat ≤ 0x7F ∧ s.carry = true) := by
  have hb : b.toNat < 256 := b.isLt
  rw [jumps_iff_toNat, dField]
  cases s.carry with
  | false => simp only [and_true, and_false, Bool.false_eq_true, or_false]; omega
  | true => simp only [and_true, and_false, Bool.true_eq_false, or_false]; omega

/-- Settles O28: the step ends in HaltedError on the path of D = 3 alone, whose bytes are those of the two ranges. -/
theorem errorHaltIffReservedByteRuns : Obligations.ErrorHaltIffReservedByteRuns := by
  intro s t b hr hb hstep
  rw [((step_next_iff hr hb).1 hstep).haltedError_iff hr, raises_iff_range]

/-! ### Runs of a launched core (60_exceptions.md R202, 70_reset_and_hazards.md R234) -/

/-- The induction over a run: a property that allows a step, and that every step keeps, allows any number of them. -/
theorem exists_runSteps_of_invariant {P : State → Prop} (hprogress : ∀ s, P s → ∃ t, step s = .next t)
    (hkeep : ∀ s t, P s → step s = .next t → P t) (k : Nat) {s : State} (h : P s) :
    ∃ t, runSteps k s = .next t ∧ P t := by
  induction k generalizing s with
  | zero => exact ⟨s, rfl, h⟩
  | succ k ih =>
    obtain ⟨u, hstep⟩ := hprogress s h
    obtain ⟨t, hrun, ht⟩ := ih (hkeep s u h hstep)
    exact ⟨t, (runSteps_succ_of_step hstep k).trans hrun, ht⟩

/-- The four invariants of the machine together. -/
def AllInvariants (s : State) : Prop := CoreInv s ∧ TraceFaithful s ∧ RoIsLastOutput s ∧ CarryFromAlu s

theorem step_keeps_allInvariants (s t : State) (h : AllInvariants s) (hstep : step s = .next t) :
    AllInvariants t := by
  obtain ⟨hcore, htrace, hro, hcarry⟩ := h
  exact ⟨stepKeepsInvariant s t hcore hstep, stepKeepsTraceFaithful s t htrace hstep,
    stepKeepsRoLastOutput s t hro hstep, stepKeepsCarryFromAlu s t hcarry hstep⟩

/-- A launched core differs from the one after reset in its memory only, which is canonical and holds address 0. -/
theorem allInvariants_of_launch {n : Nat} {image : List Byte} {s : State} (h : launch n image = .next s) :
    AllInvariants s := by
  have hwf : s.mem.wf := launch_wf h
  obtain ⟨hpos, -, -, rfl⟩ := launch_cases h
  obtain ⟨-, -, hro, hcarry⟩ := resetMeetsInvariants
  have hcore := (coreInv_iff_of_running rfl).2 ⟨hwf, hpos, rfl, rfl⟩
  exact ⟨hcore, fun _ _ hmem => absurd hmem List.not_mem_nil, hro, hcarry⟩

/-- Settles O50: a launched core has the invariants, with which every step answers a next state that has them too. -/
theorem launchedCoreRunsOn : Obligations.LaunchedCoreRunsOn := fun _ _ k _ h =>
  exists_runSteps_of_invariant (fun s hs => invariantStateSteps s hs.1) step_keeps_allInvariants k
    (allInvariants_of_launch h)

end Sys2Proof.Proofs

/-! The statement of 70_reset_and_hazards.md: what an edge of the reset input does, and that no other edge ends a
halt. -/

namespace Sys2Proof.Proofs

open Sys2Proof.Machine Sys2Proof.Expected

/-! ### The reset input (70_reset_and_hazards.md R230, R232) -/

theorem clock_of_reset {p : Pins} (hrst : p.rst = true) (s : State) : clock p s = .next s.applyReset := by
  simp [clock, hrst]

theorem cycleEvents_of_reset {p : Pins} (hrst : p.rst = true) (s : State) : cycleEvents p s = [] := by
  simp [cycleEvents, hrst]

@[simp] theorem applyReset_registers (s : State) : s.applyReset.registers = State.reset.registers := rfl

/-! ### A halt without it (70_reset_and_hazards.md R230, 43_execution_engine.md R167) -/

/-- Of the three kinds of edge, one without reset is a step, which leaves a halt alone, or changes nothing at all. -/
theorem eq_of_clock_of_halted {p : Pins} {s t : State} (hrst : p.rst = false) (hs : s.status ≠ .running)
    (h : clock p s = .next t) : t = s := by
  obtain ⟨hset, -⟩ | ⟨-, -, hstep⟩ | ⟨-, -, hsame⟩ := clock_cases h
  · exact absurd hset (by simp [hrst])
  · exact eq_of_step_of_halted hs hstep
  · exact hsame

/-- Settles O2: a reset edge answers `applyReset`, whatever the other pins and the state; any other edge keeps a
halt. -/
theorem resetInputRestoresRegisters : Obligations.ResetInputRestoresRegisters := by
  refine ⟨fun p s hrst => ?_, fun p s t hrst hs h => eq_of_clock_of_halted hrst hs h⟩
  exact ⟨s.applyReset, clock_of_reset hrst s, applyReset_registers s, applyReset_mem s, cycleEvents_of_reset hrst s⟩

end Sys2Proof.Proofs

/-! The statements on the two ways a run goes no further, the halt (43_execution_engine.md R167, R171) and the fetch
outside the memory, and the decoder on written-out words. -/

namespace Sys2Proof.Proofs

open Sys2Proof.Machine Sys2Proof.Expected

/-! ### A halted core (43_execution_engine.md R167) -/

theorem runSteps_of_halted {s : State} (h : s.status ≠ .running) (k : Nat) : runSteps k s = .next s := by
  induction k with
  | zero => rfl
  | succ k ih => rw [runSteps_succ_of_step (step_of_halted h), ih]

/-- A cycle of a halted core shows nothing: reset and a disabled edge emit no event, and a step adds none. -/
theorem cycleEvents_of_halted {s : State} (h : s.status ≠ .running) (p : Pins) : cycleEvents p s = [] := by
  cases hrst : p.rst with
  | true => exact cycleEvents_of_reset hrst s
  | false =>
    cases hen : p.en with
    | true => exact cycleEvents_of_step hrst hen (step_of_halted h) (List.append_nil _).symm
    | false => exact cycleEvents_of_disabled hen s

/-- Settles O36: the edges without reset are steps, and a step of a halted core answers the state itself. -/
theorem haltedCoreStaysPut : Obligations.HaltedCoreStaysPut := by
  intro s h
  refine ⟨runSteps_of_halted h, fun ps hrst => ⟨?_, fun p _ => cycleEvents_of_halted h p⟩⟩
  rw [clocks_eq_runSteps hrst, runSteps_of_halted h]

/-! ### The end of a run (43_execution_engine.md R171) -/

theorem halted_iff (s : State) : s.halted = true ↔ s.status ≠ .running := bne_iff_ne

theorem observe_ending_of_halted {s : State} (h : s.halted = true) : (observe s).ending = some s.registers :=
  if_pos h

/-- A run goes on from where its first `k` steps have led. -/
theorem runSteps_add {k : Nat} {s t : State} (h : runSteps k s = .next t) (m : Nat) :
    runSteps (k + m) s = runSteps m t := by
  induction k generalizing s with
  | zero =>
    obtain rfl : s = t := Host.Outcome.next.inj h
    rw [Nat.zero_add]
  | succ k ih =>
    obtain ⟨u, hstep, hrest⟩ := runSteps_succ_cases h
    rw [Nat.succ_add, runSteps_succ_of_step hstep, ih hrest]

/-- Settles O37: the steps after the first `k` are those of a halted core, so they answer the very state `t`. -/
theorem observationIsFinalAtEnd : Obligations.ObservationIsFinalAtEnd := by
  intro k j s t hrun hhalt hkj
  obtain ⟨m, rfl⟩ := Nat.exists_eq_add_of_le hkj
  have hstay : runSteps (k + m) s = .next t := by
    rw [runSteps_add hrun, runSteps_of_halted ((halted_iff t).1 hhalt)]
  exact ⟨t, hstay, rfl, observe_ending_of_halted hhalt⟩

/-! ### A fetch outside the memory (20_memory.md section 1) -/

theorem step_of_fetch_eq_none {s : State} (hr : s.status = .running) (hnone : fetch s = none) :
    step s = .fault .fetchOutsideMemory := by
  simp [step, hr, hnone]

/-- Settles O39: at PC >= N the memory has no byte to read. -/
theorem fetchOutsideMemoryFaults : Obligations.FetchOutsideMemoryFaults :=
  fun _ hr hpc => step_of_fetch_eq_none hr (read_eq_none (Nat.not_lt.2 hpc))

/-! ### Written-out words (30_encoding.md R60, R61) -/

theorem decode_of_encodeByte_eq {i : Instr} {b : Byte} (h : encodeByte i = b) : decode [b] = .ok (i, []) :=
  h ▸ decodeOfEncode i []

/-- Settles O11: each word is its instruction's fields put at their places, and the encoding decodes back. -/
theorem decodesWrittenWords : Obligations.DecodesWrittenWords := by
  refine ⟨?_, ?_, ?_, ?_, ?_, ?_, ?_, ?_⟩ <;> exact decode_of_encodeByte_eq rfl

end Sys2Proof.Proofs
